-- ==== Sys2Proof/Word.lean ====
section
/-! DEFINITION. The word types of the CORE: bytes, 16-bit words, 12-bit addresses, register and key numbers.
All values are unsigned (00_scope.md R8). -/

namespace Sys2Proof

/-- A register or memory byte (R20, R50). -/
abbrev Byte := BitVec 8

/-- The width of pc, I, a stack slot and an instruction word (R23, R24, R27, R70). -/
abbrev Word := BitVec 16

/-- The 12-bit field nnn of an instruction (R72). -/
abbrev Addr12 := BitVec 12

/-- A general register number, 0 to 15 (R20). -/
abbrev Reg := Fin 16

/-- A key number, 0 to 15 (R253). -/
abbrev Key := Fin 16

/-- V[F], the flag register (R6, R21). -/
abbrev flagReg : Reg := 15

end Sys2Proof
end

