-- ==== Sys2Proof/Config.lean ====
section
/-! DEFINITION. The fixed parameters of the CORE (00_scope.md R6), and the values its environment leaves free. -/

namespace Sys2Proof.Config

/-- MEM_SIZE: addresses 0x000 to 0xFFF (R6, R50). -/
abbrev memSize : Nat := 4096

/-- PROG_BASE: where a program is loaded and where execution starts (R6, R272). -/
abbrev progBase : Nat := 0x200

/-- PROG_MAX: the largest program (R6, R273). -/
abbrev progMax : Nat := 3584

/-- The first pc that the fetch check rejects from above (R74). -/
abbrev fetchLimit : Nat := 4095

/-- GLYPH_STRIDE: bytes per font glyph (R6, R55). -/
abbrev glyphStride : Nat := 5

/-- The random byte of the n-th draw, where no byte has been supplied in State.inputs: a free value, nothing
constrains it (R249, D16; log entry 7). -/
opaque freeRandomByte : Nat → Byte

/-- The host's answer to get_delay_timer at the n-th draw, where none has been supplied: a free value
(R252, D31; log entry 7). -/
opaque freeDelay : Nat → Byte

/-- The host's answer to check_key for a key at the n-th draw, where none has been supplied: a free value
(R253; log entry 7). -/
opaque freeKeyDown : Nat → Key → Bool

end Sys2Proof.Config
end

