-- ==== Sys2Proof/Syntax.lean ====
section
/-! DEFINITION. The 34 instructions of the CORE, one constructor per row of spec/opcode_table.json
(30_encoding.md R78). Operands are the fields of R72, already cut out of the word. -/

namespace Sys2Proof

/-- The instruction set. Registers are numbers 0 to 15; the sprite height n is a count of rows. -/
inductive Instr where
  /-- 00E0, CLS (R190) -/
  | cls
  /-- 00EE, RET (R100) -/
  | ret
  /-- 1nnn, JP nnn (R101) -/
  | jp (nnn : Addr12)
  /-- 2nnn, CALL nnn (R102) -/
  | call (nnn : Addr12)
  /-- 3xnn, SE Vx, nn (R104) -/
  | seImm (x : Reg) (nn : Byte)
  /-- 4xnn, SNE Vx, nn (R105) -/
  | sneImm (x : Reg) (nn : Byte)
  /-- 5xy0, SE Vx, Vy (R106) -/
  | seReg (x y : Reg)
  /-- 6xnn, LD Vx, nn (R130) -/
  | ldImm (x : Reg) (nn : Byte)
  /-- 7xnn, ADD Vx, nn (R131) -/
  | addImm (x : Reg) (nn : Byte)
  /-- 8xy0, LD Vx, Vy (R132) -/
  | ldReg (x y : Reg)
  /-- 8xy1, OR Vx, Vy (R133) -/
  | orReg (x y : Reg)
  /-- 8xy2, AND Vx, Vy (R134) -/
  | andReg (x y : Reg)
  /-- 8xy3, XOR Vx, Vy (R135) -/
  | xorReg (x y : Reg)
  /-- 8xy4, ADD Vx, Vy (R136) -/
  | addReg (x y : Reg)
  /-- 8xy5, SUB Vx, Vy (R137) -/
  | subReg (x y : Reg)
  /-- 8xy6, SHR Vx, Vy (R138) -/
  | shrReg (x y : Reg)
  /-- 8xy7, SUBN Vx, Vy (R139) -/
  | subnReg (x y : Reg)
  /-- 8xyE, SHL Vx, Vy (R140) -/
  | shlReg (x y : Reg)
  /-- 9xy0, SNE Vx, Vy (R107) -/
  | sneReg (x y : Reg)
  /-- Annn, LD I, nnn (R160) -/
  | ldI (nnn : Addr12)
  /-- Bnnn, JP V0, nnn (R103) -/
  | jpV0 (nnn : Addr12)
  /-- Cxnn, RND Vx, nn (R141) -/
  | rnd (x : Reg) (nn : Byte)
  /-- Dxyn, DRW Vx, Vy, n (R191) -/
  | drw (x y : Reg) (n : Nat)
  /-- Ex9E, SKP Vx (R210) -/
  | skp (x : Reg)
  /-- ExA1, SKNP Vx (R211) -/
  | sknp (x : Reg)
  /-- Fx07, LD Vx, DT (R212) -/
  | ldVxDT (x : Reg)
  /-- Fx0A, LD Vx, K (R213) -/
  | ldVxK (x : Reg)
  /-- Fx15, LD DT, Vx (R214) -/
  | ldDTVx (x : Reg)
  /-- Fx18, LD ST, Vx (R215) -/
  | ldSTVx (x : Reg)
  /-- Fx1E, ADD I, Vx (R161) -/
  | addI (x : Reg)
  /-- Fx29, LD F, Vx (R162) -/
  | ldF (x : Reg)
  /-- Fx33, LD B, Vx (R163) -/
  | ldB (x : Reg)
  /-- Fx55, LD [I], Vx (R164) -/
  | storeRegs (x : Reg)
  /-- Fx65, LD Vx, [I] (R165) -/
  | loadRegs (x : Reg)
  deriving DecidableEq, Repr

end Sys2Proof
end

