-- ==== Sys2Proof/Decode.lean ====
section
/-! DEFINITION. Decoding of an instruction word and of bytes, total, every illegal word rejected by name
(30_encoding.md R70 to R81), and the encoder written from the same format table (R73). -/

namespace Sys2Proof

/-- Why bytes are no instruction: too few of them, or a word of one of the illegal groups of R79. -/
inductive DecodeError where
  /-- fewer than the two bytes of an instruction (R70) -/
  | truncated
  /-- 0nnn other than 00E0 and 00EE -/
  | illegalGroup0 (op : Word)
  /-- 5xyd with d not 0 -/
  | illegalGroup5 (op : Word)
  /-- 8xyd with d in 8, 9, A, B, C, D, F -/
  | illegalGroup8 (op : Word)
  /-- 9xyd with d not 0 (D9) -/
  | illegalGroup9 (op : Word)
  /-- Exnn with nn neither 9E nor A1 -/
  | illegalGroupE (op : Word)
  /-- Fxnn with nn none of the nine listed -/
  | illegalGroupF (op : Word)
  deriving DecidableEq, Repr

/-- The byte at the lower address is bits 15..8 (R52, R70). -/
def wordOfBytes (hi lo : Byte) : Word := hi ++ lo

/-- Bits 15..8 of a word: the byte stored at the lower address (R52). -/
def highByte (op : Word) : Byte := op.extractLsb' 8 8

/-- Bits 7..0 of a word: the byte stored at the higher address (R52). -/
def lowByte (op : Word) : Byte := op.extractLsb' 0 8

/-- Nibble a, op[15:12] (R71). -/
def opGroup (op : Word) : Nat := (op.extractLsb' 12 4).toNat

/-- Field x, op[11:8] (R72). -/
def fieldX (op : Word) : Reg := (op.extractLsb' 8 4).toFin

/-- Field y, op[7:4] (R72). -/
def fieldY (op : Word) : Reg := (op.extractLsb' 4 4).toFin

/-- Field n, nibble d, op[3:0] (R72). -/
def fieldN (op : Word) : Nat := (op.extractLsb' 0 4).toNat

/-- Field nn, op[7:0] (R72). -/
def fieldNN (op : Word) : Byte := op.extractLsb' 0 8

/-- Field nnn, op[11:0] (R72). -/
def fieldNNN (op : Word) : Addr12 := op.extractLsb' 0 12

/-- Group 8: nibble d selects (R76, R78 rows 10 to 18, R143). -/
def decodeGroup8 (op : Word) : Except DecodeError Instr :=
  match fieldN op with
  | 0x0 => .ok (.ldReg (fieldX op) (fieldY op))
  | 0x1 => .ok (.orReg (fieldX op) (fieldY op))
  | 0x2 => .ok (.andReg (fieldX op) (fieldY op))
  | 0x3 => .ok (.xorReg (fieldX op) (fieldY op))
  | 0x4 => .ok (.addReg (fieldX op) (fieldY op))
  | 0x5 => .ok (.subReg (fieldX op) (fieldY op))
  | 0x6 => .ok (.shrReg (fieldX op) (fieldY op))
  | 0x7 => .ok (.subnReg (fieldX op) (fieldY op))
  | 0xE => .ok (.shlReg (fieldX op) (fieldY op))
  | _ => .error (.illegalGroup8 op)

/-- Group E: the byte nn selects (R76, R78 rows 24 and 25). -/
def decodeGroupE (op : Word) : Except DecodeError Instr :=
  match (fieldNN op).toNat with
  | 0x9E => .ok (.skp (fieldX op))
  | 0xA1 => .ok (.sknp (fieldX op))
  | _ => .error (.illegalGroupE op)

/-- Group F: the byte nn selects (R76, R78 rows 26 to 34). -/
def decodeGroupF (op : Word) : Except DecodeError Instr :=
  match (fieldNN op).toNat with
  | 0x07 => .ok (.ldVxDT (fieldX op))
  | 0x0A => .ok (.ldVxK (fieldX op))
  | 0x15 => .ok (.ldDTVx (fieldX op))
  | 0x18 => .ok (.ldSTVx (fieldX op))
  | 0x1E => .ok (.addI (fieldX op))
  | 0x29 => .ok (.ldF (fieldX op))
  | 0x33 => .ok (.ldB (fieldX op))
  | 0x55 => .ok (.storeRegs (fieldX op))
  | 0x65 => .ok (.loadRegs (fieldX op))
  | _ => .error (.illegalGroupF op)

/-- Decode one instruction word (R76, R78, R79): nibble a selects the group; nothing but the word is looked at. -/
def decode (op : Word) : Except DecodeError Instr :=
  match opGroup op with
  | 0x0 =>
    if op = 0x00E0#16 then .ok .cls
    else if op = 0x00EE#16 then .ok .ret
    else .error (.illegalGroup0 op)
  | 0x1 => .ok (.jp (fieldNNN op))
  | 0x2 => .ok (.call (fieldNNN op))
  | 0x3 => .ok (.seImm (fieldX op) (fieldNN op))
  | 0x4 => .ok (.sneImm (fieldX op) (fieldNN op))
  | 0x5 => if fieldN op = 0 then .ok (.seReg (fieldX op) (fieldY op)) else .error (.illegalGroup5 op)
  | 0x6 => .ok (.ldImm (fieldX op) (fieldNN op))
  | 0x7 => .ok (.addImm (fieldX op) (fieldNN op))
  | 0x8 => decodeGroup8 op
  | 0x9 => if fieldN op = 0 then .ok (.sneReg (fieldX op) (fieldY op)) else .error (.illegalGroup9 op)
  | 0xA => .ok (.ldI (fieldNNN op))
  | 0xB => .ok (.jpV0 (fieldNNN op))
  | 0xC => .ok (.rnd (fieldX op) (fieldNN op))
  | 0xD => .ok (.drw (fieldX op) (fieldY op) (fieldN op))
  | 0xE => decodeGroupE op
  | _ => decodeGroupF op

/-- Decode the first instruction of a list of bytes in address order; answer it with the bytes that follow it. -/
def decodeBytes : List Byte → Except DecodeError (Instr × List Byte)
  | hi :: lo :: rest =>
    match decode (wordOfBytes hi lo) with
    | .ok i => .ok (i, rest)
    | .error e => .error e
  | _ => .error .truncated

/-- Format NNN (R73). -/
def formatNNN (a : BitVec 4) (nnn : Addr12) : Word := a ++ nnn

/-- Format XNN, and XFN with the sub-opcode as its byte (R73). -/
def formatXNN (a : BitVec 4) (x : Reg) (nn : Byte) : Word := a ++ (BitVec.ofFin x : BitVec 4) ++ nn

/-- Formats XYF and XYN (R73). -/
def formatXYN (a : BitVec 4) (x y : Reg) (d : BitVec 4) : Word :=
  a ++ (BitVec.ofFin x : BitVec 4) ++ (BitVec.ofFin y : BitVec 4) ++ d

/-- The word of an instruction (R73, R78). For a well-formed instruction the sprite height fits its field. -/
def encode : Instr → Word
  | .cls => 0x00E0#16
  | .ret => 0x00EE#16
  | .jp nnn => formatNNN 0x1#4 nnn
  | .call nnn => formatNNN 0x2#4 nnn
  | .seImm x nn => formatXNN 0x3#4 x nn
  | .sneImm x nn => formatXNN 0x4#4 x nn
  | .seReg x y => formatXYN 0x5#4 x y 0x0#4
  | .ldImm x nn => formatXNN 0x6#4 x nn
  | .addImm x nn => formatXNN 0x7#4 x nn
  | .ldReg x y => formatXYN 0x8#4 x y 0x0#4
  | .orReg x y => formatXYN 0x8#4 x y 0x1#4
  | .andReg x y => formatXYN 0x8#4 x y 0x2#4
  | .xorReg x y => formatXYN 0x8#4 x y 0x3#4
  | .addReg x y => formatXYN 0x8#4 x y 0x4#4
  | .subReg x y => formatXYN 0x8#4 x y 0x5#4
  | .shrReg x y => formatXYN 0x8#4 x y 0x6#4
  | .subnReg x y => formatXYN 0x8#4 x y 0x7#4
  | .shlReg x y => formatXYN 0x8#4 x y 0xE#4
  | .sneReg x y => formatXYN 0x9#4 x y 0x0#4
  | .ldI nnn => formatNNN 0xA#4 nnn
  | .jpV0 nnn => formatNNN 0xB#4 nnn
  | .rnd x nn => formatXNN 0xC#4 x nn
  | .drw x y n => formatXYN 0xD#4 x y (BitVec.ofNat 4 n)
  | .skp x => formatXNN 0xE#4 x 0x9E#8
  | .sknp x => formatXNN 0xE#4 x 0xA1#8
  | .ldVxDT x => formatXNN 0xF#4 x 0x07#8
  | .ldVxK x => formatXNN 0xF#4 x 0x0A#8
  | .ldDTVx x => formatXNN 0xF#4 x 0x15#8
  | .ldSTVx x => formatXNN 0xF#4 x 0x18#8
  | .addI x => formatXNN 0xF#4 x 0x1E#8
  | .ldF x => formatXNN 0xF#4 x 0x29#8
  | .ldB x => formatXNN 0xF#4 x 0x33#8
  | .storeRegs x => formatXNN 0xF#4 x 0x55#8
  | .loadRegs x => formatXNN 0xF#4 x 0x65#8

/-- The two bytes of an instruction in address order (R52). -/
def encodeBytes (i : Instr) : List Byte := [highByte (encode i), lowByte (encode i)]

/-- The word of an opcode-table row: its bits from nbits up are zero; every instruction has one 16-bit word (R70). -/
def tableWord (nbits w : Nat) : Word := BitVec.ofNat 16 (w % 2 ^ nbits)

/-- The instruction the decoder reads from the bits w of an opcode-table row, laid out as memory holds it. -/
def decodeTableWord (nbits w : Nat) : Option Instr :=
  match decodeBytes [highByte (tableWord nbits w), lowByte (tableWord nbits w)] with
  | .ok (i, _) => some i
  | .error _ => none

end Sys2Proof
end

