-- ==== Sys2Proof/Machine/State.lean ====
section
/-! DEFINITION. Everything the spec gives the CORE to hold (10_state.md, 20_memory.md R50, 60_exceptions.md R247, R251),
the reasons a step can stop, and the state after construction (70_reset_and_hazards.md R270). Plain data throughout. -/

namespace Sys2Proof.Machine

/-- The nine error kinds, in the order of R230. -/
inductive ErrorKind where
  /-- pc below 0x200 at fetch -/
  | pcUnderflow
  /-- pc at or above 4095 at fetch -/
  | pcOverflow
  /-- 2nnn with sp = 16 -/
  | stackOverflow
  /-- 00EE with sp = 0 -/
  | stackUnderflow
  /-- 1nnn to its own address -/
  | infiniteLoop
  /-- a word no row of the opcode map matches -/
  | illegalInstruction
  /-- Fx29 with V[x] above 15 -/
  | illegalDigit
  /-- I and an access window beyond 4095 -/
  | indexOverflow
  /-- Ex9E or ExA1 with V[x] above 15 -/
  | badKey
  deriving DecidableEq, Repr

/-- The status latch (R29). -/
inductive Status where
  | running
  | halted (k : ErrorKind)
  deriving DecidableEq, Repr

/-- What a step request is answered with (R250). -/
inductive StepResult where
  | ok
  | halted (k : ErrorKind)
  deriving DecidableEq, Repr

/-- One host operation with its argument and the host's answer (R248). -/
inductive HostEvent where
  | clear
  | plot (x : Fin 64) (y : Fin 32) (set : Bool)
  | getDelayTimer (answer : Byte)
  | setDelayTimer (value : Byte)
  | setSoundTimer (value : Byte)
  | checkKey (k : Key) (answer : Bool)
  | awaitKey (answer : Key)
  deriving DecidableEq, Repr

/-- One entry of the observable trace: a host operation, or the result at the end of a step (R247). -/
inductive TraceEntry where
  | host (e : HostEvent)
  | result (r : StepResult)
  deriving DecidableEq, Repr

/-- The model's own record of what the environment will answer (R248, R249; log entry 7). Each list is read from its
head; an empty list of the first three leaves the answer a free value of Config at the counter `draws`, an empty
`awaited` means the host has not supplied a key (R251). -/
structure HostInputs where
  /-- bytes the random-byte input delivers next -/
  random : List Byte
  /-- answers to get_delay_timer -/
  delay : List Byte
  /-- answers to check_key -/
  keyDown : List Bool
  /-- keys supplied for await_key -/
  awaited : List Key
  /-- how many answers and bytes have been taken -/
  draws : Nat
  deriving DecidableEq, Repr

/-- Memory as the bytes that differ from what an unlisted address reads as (R50, R57), addresses strictly rising. -/
abbrev Memory := List Host.Cell

/-- The display buffer D[y][x]: 32 rows of 64 pixels (R28). -/
abbrev Display := Vector (Vector Bool 64) 32

/-- The state of the CORE. -/
structure State where
  /-- V[0] to V[15] (R20) -/
  v : Vector Byte 16
  /-- I (R23) -/
  index : Word
  /-- the program counter (R24) -/
  pc : Word
  /-- the number of return addresses on the stack (R26) -/
  sp : Fin 17
  /-- S[0] to S[15] (R27) -/
  stack : Vector Word 16
  /-- D (R28) -/
  display : Display
  /-- the error latch (R29) -/
  status : Status
  /-- the word fetched last (R31) -/
  lastOp : Word
  /-- the last fetch succeeded (R31) -/
  lastOpValid : Bool
  /-- mem[0..4095] (R50) -/
  mem : Memory
  /-- suspended inside a step during await_key (R251, R256) -/
  waiting : Bool
  /-- host operations and step results so far, oldest first (R247) -/
  trace : List TraceEntry
  /-- the environment's answers to come (the model's own) -/
  inputs : HostInputs
  deriving DecidableEq, Repr

/-- Why the machine stops with a fault. -/
inductive Fault where
  /-- An access to an address at or above 0x1000, which does not exist (R55). Raised by State.readByte and
  State.writeByte. Safe: it stops where the spec gives no byte. No instruction reaches it, since the bound checks
  come first (R59). -/
  | noSuchAddress (a : Nat)
  deriving DecidableEq, Repr

/-- Why a step is refused. -/
inductive Refusal where
  /-- An instruction without a meaning in this model. Raised by exec's refused arms only (there are none). Safe. -/
  | notModelled (mnemonic : String)
  /-- A step requested of a halted machine, with the kind it halted with. Raised by step only. Safe: a halted machine
  has no step (R237, D3). -/
  | stepWhileHalted (k : ErrorKind)
  deriving DecidableEq, Repr

/-- What a meaning answers. -/
abbrev Result := Host.Outcome State Fault Refusal

/-- No answer of the environment is fixed (log entry 7). -/
def HostInputs.none : HostInputs :=
  { random := [], delay := [], keyDown := [], awaited := [], draws := 0 }

/-- The machine right after construction (R270): nothing listed in memory, so the font and zeros are read (R57). -/
def State.reset : State where
  v := Vector.replicate 16 0
  index := 0
  pc := 0x200
  sp := 0
  stack := Vector.replicate 16 0
  display := Vector.replicate 32 (Vector.replicate 64 false)
  status := .running
  lastOp := 0
  lastOpValid := false
  mem := []
  waiting := false
  trace := []
  inputs := HostInputs.none

end Sys2Proof.Machine
end

