-- ==== Sys2Proof/Machine/Ops.lean ====
section
/-! DEFINITION. The named operations over the state that the meanings share: registers, memory accesses, the stack,
the display, taking an error, fetching, and the host's operations and inputs (00_scope.md R9, R10). -/

namespace Sys2Proof.Machine

/-! ### Registers -/

/-- Read V[r] (R20): no register is hard-wired. -/
def State.getV (s : State) (r : Reg) : Byte := s.v[r]

/-- Write V[r] (R20). -/
def State.setV (s : State) (r : Reg) (b : Byte) : State := { s with v := s.v.set r.val b r.isLt }

/-- Write the flag register (R21). -/
def State.setFlag (s : State) (b : Byte) : State := s.setV flagReg b

/-- Write I (R23). -/
def State.setIndex (s : State) (w : Word) : State := { s with index := w }

/-- Write pc (R24). -/
def State.setPc (s : State) (w : Word) : State := { s with pc := w }

/-- Write bytes into V[k], V[k+1], ... (the register side of Fx65, R165). -/
def State.setVs : Nat → List Byte → State → State
  | _, [], s => s
  | k, b :: bs, s => State.setVs (k + 1) bs (if h : k < 16 then s.setV ⟨k, h⟩ b else s)

/-- The bytes of V[0] to V[x] in order (the register side of Fx55, R164). -/
def State.regsUpTo (s : State) (x : Reg) : List Byte := s.v.toList.take (x.val + 1)

/-! ### The program counter and errors -/

/-- fetch_pc inside a step: pc has been advanced by 2 and no check runs after an instruction changed it
(R24, R75; log entry 10). -/
def State.fetchPc (s : State) : Word := s.pc - 2

/-- The primitive skip (R10, R109). -/
def State.skip (s : State) : State := s.setPc (s.pc + 2)

/-- A conditional skip (R104 to R107, R210, R211). -/
def State.skipIf (s : State) (c : Bool) : State := if c then s.skip else s

/-- TAKING AN ERROR, `raise E` (R233): pc back to fetch_pc, the status latched, nothing else written (R232).
There is no return from it (R238); only construction returns the status to Running. -/
def State.raise (s : State) (k : ErrorKind) : State := { s with pc := s.fetchPc, status := .halted k }

/-- A failed fetch check (R74): the status is latched, the debug latch is invalid, pc is not rewound. -/
def State.fetchError (s : State) (k : ErrorKind) : State := { s with status := .halted k, lastOpValid := false }

/-! ### Memory -/

/-- MemRead(addr, 1) (R10): an address that does not exist faults (R55). -/
def State.readByte (s : State) (a : Nat) : Except Fault Byte :=
  if a < Config.memSize then .ok (Memory.read s.mem a) else .error (.noSuchAddress a)

/-- MemWrite(addr, 1, v) (R10): an address that does not exist faults (R55). -/
def State.writeByte (s : State) (a : Nat) (b : Byte) : Except Fault State :=
  if a < Config.memSize then .ok { s with mem := Memory.write s.mem a b } else .error (.noSuchAddress a)

/-- Read n bytes at rising addresses from a (R166). -/
def State.readBytes (s : State) (a : Nat) : Nat → Except Fault (List Byte)
  | 0 => .ok []
  | n + 1 =>
    match s.readByte a with
    | .error f => .error f
    | .ok b =>
      match State.readBytes s (a + 1) n with
      | .error f => .error f
      | .ok bs => .ok (b :: bs)

/-- Write bytes at rising addresses from a (R166). -/
def State.storeBytes : Nat → List Byte → State → Except Fault State
  | _, [], s => .ok s
  | a, b :: bs, s =>
    match s.writeByte a b with
    | .error f => .error f
    | .ok t => State.storeBytes (a + 1) bs t

/-! ### Fetch -/

/-- Read op = mem[pc] ++ mem[pc+1] (R52, R75). -/
def State.fetchOp (s : State) : Except Fault Word :=
  match s.readByte s.pc.toNat with
  | .error f => .error f
  | .ok hi =>
    match s.readByte (s.pc.toNat + 1) with
    | .error f => .error f
    | .ok lo => .ok (wordOfBytes hi lo)

/-- After a fetch of op: the debug latch holds it and pc is advanced (R31, R75). A step that was suspended in
await_key is under way again (log entry 8). -/
def State.afterFetch (s : State) (op : Word) : State :=
  { s with pc := s.pc + 2, lastOp := op, lastOpValid := true, waiting := false }

/-! ### The call stack -/

/-- Push a return address (R27, R102); none where the stack is full. -/
def State.push (s : State) (w : Word) : Option State :=
  if h : s.sp.val < 16 then
    some { s with stack := s.stack.set s.sp.val w h, sp := ⟨s.sp.val + 1, Nat.succ_lt_succ h⟩ }
  else none

/-- Pop a return address into pc (R27, R100); none where the stack is empty. The slot keeps its value. -/
def State.popToPc (s : State) : Option State :=
  if h : 0 < s.sp.val then
    some { s with
      sp := ⟨s.sp.val - 1, Nat.lt_of_le_of_lt (Nat.sub_le _ _) s.sp.isLt⟩
      pc := s.stack[s.sp.val - 1]'(by have := s.sp.isLt; omega) }
  else none

/-! ### The trace of host operations and step results -/

/-- Record one entry of the trace (R247). -/
def State.record (s : State) (e : TraceEntry) : State := { s with trace := s.trace ++ [e] }

/-- Perform a host operation: an event of the step (R10, R247). -/
def State.emit (s : State) (e : HostEvent) : State := s.record (.host e)

/-- The step result a state stands for (R77, R250). -/
def Status.stepResult : Status → StepResult
  | .running => .ok
  | .halted k => .halted k

/-- Record the step result (R247). -/
def State.recordResult (s : State) : State := s.record (.result s.status.stepResult)

/-- The end of a step: its result is recorded, unless it is suspended in await_key and has not ended (R251). -/
def State.endStep (s : State) : State := if s.waiting then s else s.recordResult

/-- End the step of a meaning that answered a next state. -/
def finishStep : Result → Result
  | .next s => .next s.endStep
  | .fault f => .fault f
  | .refused r => .refused r

/-! ### What the environment answers -/

/-- The byte the random input delivers now (R249): the supplied one, else a free value. -/
def State.randomByte (s : State) : Byte := s.inputs.random.headD (Config.freeRandomByte s.inputs.draws)

/-- What get_delay_timer answers now (R252): the supplied answer, else a free value. -/
def State.delayAnswer (s : State) : Byte := s.inputs.delay.headD (Config.freeDelay s.inputs.draws)

/-- What check_key answers now for a key (R253): the supplied answer, else a free value. -/
def State.keyAnswer (s : State) (k : Key) : Bool := s.inputs.keyDown.headD (Config.freeKeyDown s.inputs.draws k)

/-- Take one random byte: exactly one is consumed per Cxnn (R141). -/
def State.takeRandom (s : State) : State :=
  { s with inputs := { s.inputs with random := s.inputs.random.tail, draws := s.inputs.draws + 1 } }

/-- Call get_delay_timer (R248). -/
def State.callGetDelay (s : State) : State :=
  State.emit { s with inputs := { s.inputs with delay := s.inputs.delay.tail, draws := s.inputs.draws + 1 } }
    (.getDelayTimer s.delayAnswer)

/-- Call check_key (R248). -/
def State.callCheckKey (s : State) (k : Key) : State :=
  State.emit { s with inputs := { s.inputs with keyDown := s.inputs.keyDown.tail, draws := s.inputs.draws + 1 } }
    (.checkKey k (s.keyAnswer k))

/-- The host has answered await_key with k (R213, R248). -/
def State.answerAwaitKey (s : State) (k : Key) : State :=
  State.emit { s with inputs := { s.inputs with awaited := s.inputs.awaited.tail, draws := s.inputs.draws + 1 } }
    (.awaitKey k)

/-- The host has not answered await_key: the step is suspended and all state is kept, pc at the instruction, until the
host supplies a key (R251, R256; log entry 8). -/
def State.suspend (s : State) : State := { s with pc := s.fetchPc, waiting := true }

/-! ### The display -/

/-- Pixel D[y][x] (R28). -/
def State.pixel (s : State) (x : Fin 64) (y : Fin 32) : Bool := s.display[y][x]

/-- Write pixel D[y][x] (R28). -/
def State.setPixel (s : State) (x : Fin 64) (y : Fin 32) (b : Bool) : State :=
  { s with display := s.display.set y.val (s.display[y].set x.val b x.isLt) y.isLt }

/-- Every pixel 0 (R190). -/
def State.clearDisplay (s : State) : State :=
  { s with display := Vector.replicate 32 (Vector.replicate 64 false) }

/-- XOR a set sprite bit into a pixel: a pixel that was set sets V[F], and the new value is plotted (R191, R193, R194). -/
def State.flipPixel (s : State) (x : Fin 64) (y : Fin 32) : State :=
  let old := s.pixel x y
  let flipped := s.setPixel x y (!old)
  (if old then flipped.setFlag 1 else flipped).emit (.plot x y (!old))

/-- One sprite bit at a position that may lie past the right or bottom edge: clipped there, nothing for a 0 bit (R192). -/
def State.drawBit (s : State) (x y : Nat) (bit : Bool) : State :=
  if h : x < 64 ∧ y < 32 ∧ bit = true then s.flipPixel ⟨x, h.1⟩ ⟨y, h.2.1⟩ else s

/-- One sprite row at start column x0: bit 7 is the leftmost pixel, columns left to right (R191, D13). -/
def State.drawColumns (x0 y : Nat) (row : Byte) : List Nat → State → State
  | [], s => s
  | c :: cs, s => State.drawColumns x0 y row cs (s.drawBit (x0 + c) y (row.getLsbD (7 - c)))

/-- The eight columns of a sprite row, left to right (R191). -/
def spriteColumns : List Nat := [0, 1, 2, 3, 4, 5, 6, 7]

/-- The rows of a sprite from row y down, top to bottom (R191). -/
def State.drawRows (x0 : Nat) : Nat → List Byte → State → State
  | _, [], s => s
  | y, row :: rows, s => State.drawRows x0 (y + 1) rows (State.drawColumns x0 y row spriteColumns s)

end Sys2Proof.Machine
end

