-- ==== Sys2Proof/Machine/Operands.lean ====
section
/-! DEFINITION. The operand forms of the instructions: addresses, access windows with their bound checks, digits, key
numbers and sprite coordinates (30_encoding.md R72; 20_memory.md R59). -/

namespace Sys2Proof.Machine

/-- The 16-bit value of nnn (R72). -/
def zextAddr (nnn : Addr12) : Word := nnn.setWidth 16

/-- The 16-bit value of a byte (R72). -/
def zextByte (b : Byte) : Word := b.setWidth 16

/-- The target of Bnnn: nnn + V[0] (R103). -/
def State.computedTarget (s : State) (nnn : Addr12) : Word := zextAddr nnn + zextByte (s.getV 0)

/-- An access window of n bytes from I passes 4095, on exact integers (R59, D11). An empty window does not. -/
def State.windowOverflows (s : State) (n : Nat) : Bool := decide (0 < n ∧ 4095 < s.index.toNat + (n - 1))

/-- V[x] as a number 0 to 15, a digit or a key; none where it is above 15 (R162, R210). -/
def State.nibbleOf (s : State) (x : Reg) : Option (Fin 16) :=
  if h : (s.getV x).toNat < 16 then some ⟨(s.getV x).toNat, h⟩ else none

/-- The address of the glyph of a digit (R162). -/
def glyphAddress (d : Fin 16) : Word := BitVec.ofNat 16 (d.val * Config.glyphStride)

/-- The start column of a sprite: only the start wraps (R192). -/
def State.spriteX (s : State) (x : Reg) : Nat := (s.getV x).toNat % 64

/-- The start row of a sprite: only the start wraps (R192). -/
def State.spriteY (s : State) (y : Reg) : Nat := (s.getV y).toNat % 32

/-- The three decimal digits of a byte, hundreds first (R163). -/
def bcdDigits (b : Byte) : List Byte :=
  [BitVec.ofNat 8 (b.toNat / 100), BitVec.ofNat 8 (b.toNat / 10 % 10), BitVec.ofNat 8 (b.toNat % 10)]

/-- The 8-bit value of a key number (R213, D19). -/
def keyByte (k : Key) : Byte := BitVec.ofNat 8 k.val

end Sys2Proof.Machine
end

