-- ==== Sys2Proof/Machine/Flags.lean ====
section
/-! DEFINITION. The results and flags of the 8-bit ALU, on exact numbers narrowed at the end (41_alu.md R142, R144). -/

namespace Sys2Proof.Machine

/-- A flag as the byte V[F] holds. -/
def flagByte (b : Bool) : Byte := if b then 1 else 0

/-- The sum modulo 256 (R131, R136). -/
def addResult (a b : Byte) : Byte := BitVec.ofNat 8 (a.toNat + b.toNat)

/-- The carry of an 8-bit add: the exact sum exceeds 255 (R136). -/
def addCarry (a b : Byte) : Byte := flagByte (decide (255 < a.toNat + b.toNat))

/-- The difference a minus b modulo 256 (R137, R139). -/
def subResult (a b : Byte) : Byte := BitVec.ofInt 8 ((a.toNat : Int) - (b.toNat : Int))

/-- The no-borrow flag of a minus b: equal operands give 1 (R137, R139). -/
def subNoBorrow (a b : Byte) : Byte := flagByte (decide (b.toNat ≤ a.toNat))

/-- A byte shifted right by one (R138). -/
def shrResult (b : Byte) : Byte := BitVec.ofNat 8 (b.toNat / 2)

/-- The bit a right shift loses, bit 0 (R138). -/
def shrFlag (b : Byte) : Byte := flagByte (b.getLsbD 0)

/-- A byte shifted left by one, modulo 256 (R140). -/
def shlResult (b : Byte) : Byte := BitVec.ofNat 8 (b.toNat * 2)

/-- The bit a left shift loses, bit 7 (R140). -/
def shlFlag (b : Byte) : Byte := flagByte (b.getLsbD 7)

end Sys2Proof.Machine
end

