-- ==== Sys2Proof/Machine/Alu.lean ====
section
/-! DEFINITION. The meanings of the register file and ALU family (41_alu.md). None can raise an error. Statements run in
the order the rules write them, which decides the cases x = 15 and y = 15 (R11, R142, D10; log entry 11). -/

namespace Sys2Proof.Machine

/-- The logic operations: the result, then V[F] = 0 (R133 to R135). -/
def State.logic (s : State) (x : Reg) (result : Byte) : Result := .next ((s.setV x result).setFlag 0)

/-- Result first, flag last, both from the prior operands (R136, R137, R139, R142). -/
def State.resultThenFlag (s : State) (x : Reg) (result flag : Byte) : Result := .next ((s.setV x result).setFlag flag)

/-- 6xnn (R130): V[x] <- nn. -/
def execLdImm (x : Reg) (nn : Byte) (s : State) : Result := .next (s.setV x nn)

/-- 7xnn (R131): V[x] <- V[x] + nn modulo 256, no flag. -/
def execAddImm (x : Reg) (nn : Byte) (s : State) : Result := .next (s.setV x (addResult (s.getV x) nn))

/-- 8xy0 (R132): V[x] <- V[y]. -/
def execLdReg (x y : Reg) (s : State) : Result := .next (s.setV x (s.getV y))

/-- 8xy1 (R133): V[x] <- V[x] OR V[y]; V[F] <- 0. -/
def execOrReg (x y : Reg) (s : State) : Result := s.logic x (s.getV x ||| s.getV y)

/-- 8xy2 (R134): V[x] <- V[x] AND V[y]; V[F] <- 0. -/
def execAndReg (x y : Reg) (s : State) : Result := s.logic x (s.getV x &&& s.getV y)

/-- 8xy3 (R135): V[x] <- V[x] XOR V[y]; V[F] <- 0. -/
def execXorReg (x y : Reg) (s : State) : Result := s.logic x (s.getV x ^^^ s.getV y)

/-- 8xy4 (R136): V[x] <- V[x] + V[y] modulo 256; V[F] <- carry. -/
def execAddReg (x y : Reg) (s : State) : Result :=
  s.resultThenFlag x (addResult (s.getV x) (s.getV y)) (addCarry (s.getV x) (s.getV y))

/-- 8xy5 (R137): V[x] <- V[x] - V[y] modulo 256; V[F] <- no borrow. -/
def execSubReg (x y : Reg) (s : State) : Result :=
  s.resultThenFlag x (subResult (s.getV x) (s.getV y)) (subNoBorrow (s.getV x) (s.getV y))

/-- 8xy6 (R138): V[F] <- bit 0 of V[y]; V[x] <- V[y] >> 1, V[y] read after the V[F] write. -/
def execShrReg (x y : Reg) (s : State) : Result :=
  let flagged := s.setFlag (shrFlag (s.getV y))
  .next (flagged.setV x (shrResult (flagged.getV y)))

/-- 8xy7 (R139): V[x] <- V[y] - V[x] modulo 256; V[F] <- no borrow. -/
def execSubnReg (x y : Reg) (s : State) : Result :=
  s.resultThenFlag x (subResult (s.getV y) (s.getV x)) (subNoBorrow (s.getV y) (s.getV x))

/-- 8xyE (R140): V[F] <- bit 7 of V[y]; V[x] <- V[y] << 1, V[y] read after the V[F] write. -/
def execShlReg (x y : Reg) (s : State) : Result :=
  let flagged := s.setFlag (shlFlag (s.getV y))
  .next (flagged.setV x (shlResult (flagged.getV y)))

/-- Cxnn (R141): V[x] <- the random byte AND nn, one byte consumed. -/
def execRnd (x : Reg) (nn : Byte) (s : State) : Result := .next (s.takeRandom.setV x (s.randomByte &&& nn))

end Sys2Proof.Machine
end

