-- ==== Sys2Proof/Machine/Control.lean ====
section
/-! DEFINITION. The meanings of the control transfer family (40_control_flow.md). On entry pc = fetch_pc + 2. -/

namespace Sys2Proof.Machine

/-- 00EE (R100): pop the return address, or raise StackUnderflow. -/
def execRet (s : State) : Result :=
  match s.popToPc with
  | none => .next (s.raise .stackUnderflow)
  | some t => .next t

/-- 1nnn (R101): jump, or raise InfiniteLoop where the target is this instruction. -/
def execJp (nnn : Addr12) (s : State) : Result :=
  if zextAddr nnn = s.fetchPc then .next (s.raise .infiniteLoop) else .next (s.setPc (zextAddr nnn))

/-- 2nnn (R102): push the address of the next instruction and jump, or raise StackOverflow. -/
def execCall (nnn : Addr12) (s : State) : Result :=
  match s.push s.pc with
  | none => .next (s.raise .stackOverflow)
  | some t => .next (t.setPc (zextAddr nnn))

/-- Bnnn (R103): jump to nnn + V[0]; no self-jump detection. -/
def execJpV0 (nnn : Addr12) (s : State) : Result := .next (s.setPc (s.computedTarget nnn))

/-- 3xnn (R104): skip if V[x] = nn. -/
def execSeImm (x : Reg) (nn : Byte) (s : State) : Result := .next (s.skipIf (s.getV x == nn))

/-- 4xnn (R105): skip if V[x] differs from nn. -/
def execSneImm (x : Reg) (nn : Byte) (s : State) : Result := .next (s.skipIf (s.getV x != nn))

/-- 5xy0 (R106): skip if V[x] = V[y]. -/
def execSeReg (x y : Reg) (s : State) : Result := .next (s.skipIf (s.getV x == s.getV y))

/-- 9xy0 (R107): skip if V[x] differs from V[y]. -/
def execSneReg (x y : Reg) (s : State) : Result := .next (s.skipIf (s.getV x != s.getV y))

end Sys2Proof.Machine
end

