-- ==== Sys2Proof/Machine/Draw.lean ====
section
/-! DEFINITION. The meanings of the display family (43_display.md). -/

namespace Sys2Proof.Machine

/-- 00E0 (R190): clear the buffer, then one clear event (D26). -/
def execCls (s : State) : Result := .next (s.clearDisplay.emit .clear)

/-- Dxyn (R191): check every row address, set V[F] to 0, read the start coordinates after that (D10), then XOR the
rows into the display with clipping, collision and plot events (R192 to R194). -/
def execDrw (x y : Reg) (n : Nat) (s : State) : Result :=
  if s.windowOverflows n then .next (s.raise .indexOverflow)
  else
    let cleared := s.setFlag 0
    match cleared.readBytes cleared.index.toNat n with
    | .error f => .fault f
    | .ok rows => .next (State.drawRows (cleared.spriteX x) (cleared.spriteY y) rows cleared)

end Sys2Proof.Machine
end

