-- ==== Sys2Proof/Machine/HostIo.lean ====
section
/-! DEFINITION. The meanings of the keypad and timer family (44_host_io.md). Every host operation is an event of the
trace (R247, R248); the answers are the environment's (log entry 7). -/

namespace Sys2Proof.Machine

/-- Ex9E (R210): ask the host about key V[x] and skip if it is down, or raise BadKey before any call (D29). -/
def execSkp (x : Reg) (s : State) : Result :=
  match s.nibbleOf x with
  | none => .next (s.raise .badKey)
  | some k => .next ((s.callCheckKey k).skipIf (s.keyAnswer k))

/-- ExA1 (R211): ask the host about key V[x] and skip if it is up, or raise BadKey before any call (D29). -/
def execSknp (x : Reg) (s : State) : Result :=
  match s.nibbleOf x with
  | none => .next (s.raise .badKey)
  | some k => .next ((s.callCheckKey k).skipIf (!s.keyAnswer k))

/-- Fx07 (R212): V[x] <- the host's delay timer. -/
def execLdVxDT (x : Reg) (s : State) : Result := .next (s.callGetDelay.setV x s.delayAnswer)

/-- Fx0A (R213): V[x] <- the key the host answers; until it answers the step is suspended (R251, D30). -/
def execLdVxK (x : Reg) (s : State) : Result :=
  match s.inputs.awaited with
  | [] => .next s.suspend
  | k :: _ => .next ((s.answerAwaitKey k).setV x (keyByte k))

/-- Fx15 (R214): pass V[x] to set_delay_timer. -/
def execLdDTVx (x : Reg) (s : State) : Result := .next (s.emit (.setDelayTimer (s.getV x)))

/-- Fx18 (R215): pass V[x] to set_sound_timer. -/
def execLdSTVx (x : Reg) (s : State) : Result := .next (s.emit (.setSoundTimer (s.getV x)))

end Sys2Proof.Machine
end

