-- ==== Sys2Proof/Machine/IndexMemory.lean ====
section
/-! DEFINITION. The meanings of the index register and memory transfer family (42_index_memory.md). Every bound check
comes before any write (R166, R232). -/

namespace Sys2Proof.Machine

/-- Annn (R160): I <- nnn. -/
def execLdI (nnn : Addr12) (s : State) : Result := .next (s.setIndex (zextAddr nnn))

/-- Fx1E (R161): I <- I + V[x] modulo 65536, no flag (D17). -/
def execAddI (x : Reg) (s : State) : Result := .next (s.setIndex (s.index + zextByte (s.getV x)))

/-- Fx29 (R162): I <- the glyph address of the digit V[x], or raise IllegalDigit. -/
def execLdF (x : Reg) (s : State) : Result :=
  match s.nibbleOf x with
  | none => .next (s.raise .illegalDigit)
  | some d => .next (s.setIndex (glyphAddress d))

/-- Fx33 (R163): store the three digits of V[x] at I, or raise IndexOverflow; I keeps its value (D24). -/
def execLdB (x : Reg) (s : State) : Result :=
  if s.windowOverflows 3 then .next (s.raise .indexOverflow)
  else
    match State.storeBytes s.index.toNat (bcdDigits (s.getV x)) s with
    | .error f => .fault f
    | .ok t => .next t

/-- Fx55 (R164): store V[0] to V[x] at I and advance I by x + 1, or raise IndexOverflow. -/
def execStoreRegs (x : Reg) (s : State) : Result :=
  if s.windowOverflows (x.val + 1) then .next (s.raise .indexOverflow)
  else
    match State.storeBytes s.index.toNat (s.regsUpTo x) s with
    | .error f => .fault f
    | .ok t => .next (t.setIndex (s.index + BitVec.ofNat 16 (x.val + 1)))

/-- Fx65 (R165): load V[0] to V[x] from I and advance I by x + 1, or raise IndexOverflow. -/
def execLoadRegs (x : Reg) (s : State) : Result :=
  if s.windowOverflows (x.val + 1) then .next (s.raise .indexOverflow)
  else
    match s.readBytes s.index.toNat (x.val + 1) with
    | .error f => .fault f
    | .ok bs => .next ((State.setVs 0 bs s).setIndex (s.index + BitVec.ofNat 16 (x.val + 1)))

end Sys2Proof.Machine
end

