-- ==== Sys2Proof/Machine/Step.lean ====
section
/-! DEFINITION. One fetch-decode-execute step (30_encoding.md R74 to R77), and the placing of an instruction where the
next step fetches it. -/

namespace Sys2Proof.Machine

/-- Decode and execute a fetched word; an illegal word raises IllegalInstruction (R76, R77, R79). -/
def execWord (op : Word) (s : State) : Result :=
  match decode op with
  | .error _ => .next (s.raise .illegalInstruction)
  | .ok i => exec i s

/-- One step. A halted machine has none (R237, D3); the fetch checks come first (R74), then fetch and advance (R75),
then decode and execute (R76, R77), then the step result (R247). -/
def step (s : State) : Host.Outcome State Fault Refusal :=
  match s.status with
  | .halted k => .refused (.stepWhileHalted k)
  | .running =>
    if s.pc.toNat < Config.progBase then .next (s.fetchError .pcUnderflow).recordResult
    else if Config.fetchLimit ≤ s.pc.toNat then .next (s.fetchError .pcOverflow).recordResult
    else
      match s.fetchOp with
      | .error f => .fault f
      | .ok op => finishStep (execWord op (s.afterFetch op))

/-- The state with the word w of an opcode-table row stored at pc, in memory byte order, and nothing else changed. -/
def State.withFetchWord (s : State) (nbits w : Nat) : State :=
  { s with
    mem := Memory.writeList s.mem s.pc.toNat [highByte (tableWord nbits w), lowByte (tableWord nbits w)] }

end Sys2Proof.Machine
end

