-- ==== Sys2Proof/Machine/HostPort.lean ====
section
/-! DEFINITION. What the host does with the CORE outside a step: construction with its parameters, program load, the
step port, the read ports, and supplying answers (60_exceptions.md R248 to R259; 70_reset_and_hazards.md R270 to R274). -/

namespace Sys2Proof.Machine

/-- The parameters of construction (R56, D4 to D6). -/
structure Params where
  /-- FONT, 80 bytes -/
  font : Vector Byte 80
  /-- INIT_V -/
  initV : Vector Byte 16
  /-- INIT_I -/
  initI : Word
  /-- INIT_MEM: the bytes from 0x050 on; where the list ends, and past 0xFFF, it gives nothing and 0x00 stands -/
  initMem : List Byte
  deriving DecidableEq, Repr

/-- The default parameters (R56, D4, D5). -/
def defaultParams : Params where
  font := ⟨defaultFont.toArray, by decide⟩
  initV := Vector.replicate 16 0
  initI := 0
  initMem := []

/-- Construction (R270) with given parameters; State.reset is construction with the default ones. -/
def construct (p : Params) : State :=
  { State.reset with
    v := p.initV
    index := p.initI
    mem := Memory.writeList (Memory.writeList [] 0 p.font.toList) 80 (p.initMem.take (Config.memSize - 80)) }

/-- Why a program load is rejected: more than 3584 bytes (R273). It is no error kind of the CORE (D22). -/
inductive LoadError where
  | tooLarge
  deriving DecidableEq, Repr

/-- Program load (R273, R274): the bytes are copied to 0x200 on, nothing else changes; a rejected load writes nothing. -/
def State.loadProgram (s : State) (buf : List Byte) : Except LoadError State :=
  if buf.length ≤ Config.progMax then .ok { s with mem := Memory.writeList s.mem Config.progBase buf }
  else .error .tooLarge

/-- The 4-bit code of the status latch (R30, D2). -/
def Status.code : Status → BitVec 4
  | .running => 0
  | .halted .pcUnderflow => 1
  | .halted .pcOverflow => 2
  | .halted .stackOverflow => 3
  | .halted .stackUnderflow => 4
  | .halted .infiniteLoop => 5
  | .halted .illegalInstruction => 6
  | .halted .illegalDigit => 7
  | .halted .indexOverflow => 8
  | .halted .badKey => 9

/-- What the step-response interface carries: the step result (R250) and the code of the status latch (R30). -/
structure StepResponse where
  result : StepResult
  statusCode : BitVec 4
  deriving DecidableEq, Repr

/-- The response that reports a status (R30, R250). -/
def Status.response (st : Status) : StepResponse := { result := st.stepResult, statusCode := st.code }

/-- The step port (R250): the state after a step request and its response; a halted machine answers its kind again and
changes nothing (R237). No response yet while the step is suspended in await_key (R251), or where the step faults. -/
def State.respond (s : State) : State × Option StepResponse :=
  match s.status with
  | .halted k => (s, some (Status.halted k).response)
  | .running =>
    match step s with
    | .next t => (t, if t.waiting then none else some t.status.response)
    | .fault _ => (s, none)
    | .refused _ => (s, none)

/-- The debug read port: the diagnostic dump (R258), and the code of the status latch, which the debug interface also
carries (R30). -/
structure Dump where
  pc : Word
  index : Word
  sp : Fin 17
  /-- the word fetched last, kept also where lastOpValid is false (R31) -/
  lastOp : Word
  /-- lastOp is the word of the step that ended last (R31) -/
  lastOpValid : Bool
  /-- all 16 slots; sp marks the live ones -/
  slots : Vector Word 16
  /-- the code of the status latch (R30) -/
  statusCode : BitVec 4
  deriving DecidableEq, Repr

/-- Read the debug port; reading it changes nothing (R30, R258). -/
def State.dump (s : State) : Dump where
  pc := s.pc
  index := s.index
  sp := s.sp
  lastOp := s.lastOp
  lastOpValid := s.lastOpValid
  slots := s.stack
  statusCode := s.status.code

/-- The failing instruction's raw bytes, high byte first, when available (R31, R258). -/
def Dump.rawBytes (d : Dump) : Option (List Byte) :=
  if d.lastOpValid then some [highByte d.lastOp, lowByte d.lastOp] else none

/-- The host supplies a key, which ends a wait in await_key (R251, R256). -/
def State.supplyKey (s : State) (k : Key) : State :=
  { s with inputs := { s.inputs with awaited := s.inputs.awaited ++ [k] } }

/-- The environment fixes the next byte of the random input (R249). -/
def State.supplyRandom (s : State) (b : Byte) : State :=
  { s with inputs := { s.inputs with random := s.inputs.random ++ [b] } }

/-- The host fixes its next answer to get_delay_timer (R252). -/
def State.supplyDelay (s : State) (b : Byte) : State :=
  { s with inputs := { s.inputs with delay := s.inputs.delay ++ [b] } }

/-- The host fixes its next answer to check_key (R253). -/
def State.supplyKeyDown (s : State) (b : Bool) : State :=
  { s with inputs := { s.inputs with keyDown := s.inputs.keyDown ++ [b] } }

end Sys2Proof.Machine
end

