-- ==== Sys2Proof/Safety.lean ====
section
/-! DEFINITION. The terms claims are stated in: what a step or an instruction keeps, when a fetch can run, which words
are illegal, where a sprite draws, and the invariant of the machine. -/

namespace Sys2Proof.Machine

/-- The parts of the state other than the general registers. -/
inductive Part where
  | index | pc | stack | display | status | debugLatch | waiting | mem | trace | inputs
  deriving DecidableEq, Repr

/-- A part is the same in two states. Memory is compared through the read of one byte, the display pixel by pixel. -/
def Part.same (s t : State) : Part → Prop
  | .index => t.index = s.index
  | .pc => t.pc = s.pc
  | .stack => t.sp = s.sp ∧ ∀ k : Fin 16, t.stack[k] = s.stack[k]
  | .display => ∀ (x : Fin 64) (y : Fin 32), t.pixel x y = s.pixel x y
  | .status => t.status = s.status
  | .debugLatch => t.lastOp = s.lastOp ∧ t.lastOpValid = s.lastOpValid
  | .waiting => t.waiting = s.waiting
  | .mem => ∀ a : Nat, Memory.read t.mem a = Memory.read s.mem a
  | .trace => t.trace = s.trace
  | .inputs => t.inputs = s.inputs

/-- Every part but the listed ones is the same. -/
def keepsAllBut (ps : List Part) (s t : State) : Prop := ∀ p, p ∉ ps → Part.same s t p

/-- Every general register but the listed ones is the same. -/
def keepsRegsBut (rs : List Reg) (s t : State) : Prop := ∀ r, r ∉ rs → t.getV r = s.getV r

/-- Every byte of memory but the n bytes from a is the same. -/
def keepsMemOutside (a n : Nat) (s t : State) : Prop :=
  ∀ b : Nat, b < a ∨ a + n ≤ b → Memory.read t.mem b = Memory.read s.mem b

/-- Inside a step of the instruction at pc - 2: an error of kind k was taken and nothing else changed (R232, R233). -/
def raised (k : ErrorKind) (s t : State) : Prop :=
  t.status = .halted k ∧ t.pc = s.pc - 2 ∧ keepsRegsBut [] s t ∧ keepsAllBut [.status, .pc] s t

/-- A running machine whose pc passes the fetch checks (R74). -/
abbrev State.fetchable (s : State) : Prop := s.status = .running ∧ 0x200 ≤ s.pc.toNat ∧ s.pc.toNat < 4095

/-- The word the next fetch reads (R52). -/
def State.wordAtPc (s : State) : Word :=
  wordOfBytes (Memory.read s.mem s.pc.toNat) (Memory.read s.mem (s.pc.toNat + 1))

/-- The illegal words, group by group, as the table of R79 lists them; nibbles by division. -/
abbrev IllegalWord (op : Word) : Prop :=
  (op.toNat / 4096 = 0 ∧ op.toNat ≠ 0x00E0 ∧ op.toNat ≠ 0x00EE) ∨
  (op.toNat / 4096 = 5 ∧ op.toNat % 16 ≠ 0) ∨
  (op.toNat / 4096 = 8 ∧ op.toNat % 16 ∈ [0x8, 0x9, 0xA, 0xB, 0xC, 0xD, 0xF]) ∨
  (op.toNat / 4096 = 9 ∧ op.toNat % 16 ≠ 0) ∨
  (op.toNat / 4096 = 0xE ∧ op.toNat % 256 ∉ [0x9E, 0xA1]) ∨
  (op.toNat / 4096 = 0xF ∧ op.toNat % 256 ∉ [0x07, 0x0A, 0x15, 0x18, 0x1E, 0x29, 0x33, 0x55, 0x65])

/-- One row of the opcode map: a word is the row's when it agrees with `pattern` on the bits of `mask` (R78). -/
structure OpcodeRow where
  mnemonic : String
  mask : Word
  pattern : Word
  deriving DecidableEq, Repr

/-- A word is the row's. -/
def OpcodeRow.covers (r : OpcodeRow) (op : Word) : Bool := op &&& r.mask == r.pattern

/-- The opcode map, rows 1 to 18 (R78). -/
def opcodeRowsLow : List OpcodeRow :=
  [⟨"00E0", 0xFFFF, 0x00E0⟩, ⟨"00EE", 0xFFFF, 0x00EE⟩, ⟨"1nnn", 0xF000, 0x1000⟩, ⟨"2nnn", 0xF000, 0x2000⟩,
   ⟨"3xnn", 0xF000, 0x3000⟩, ⟨"4xnn", 0xF000, 0x4000⟩, ⟨"5xy0", 0xF00F, 0x5000⟩, ⟨"6xnn", 0xF000, 0x6000⟩,
   ⟨"7xnn", 0xF000, 0x7000⟩, ⟨"8xy0", 0xF00F, 0x8000⟩, ⟨"8xy1", 0xF00F, 0x8001⟩, ⟨"8xy2", 0xF00F, 0x8002⟩,
   ⟨"8xy3", 0xF00F, 0x8003⟩, ⟨"8xy4", 0xF00F, 0x8004⟩, ⟨"8xy5", 0xF00F, 0x8005⟩, ⟨"8xy6", 0xF00F, 0x8006⟩,
   ⟨"8xy7", 0xF00F, 0x8007⟩, ⟨"8xyE", 0xF00F, 0x800E⟩]

/-- The opcode map, rows 19 to 34 (R78). -/
def opcodeRowsHigh : List OpcodeRow :=
  [⟨"9xy0", 0xF00F, 0x9000⟩, ⟨"Annn", 0xF000, 0xA000⟩, ⟨"Bnnn", 0xF000, 0xB000⟩, ⟨"Cxnn", 0xF000, 0xC000⟩,
   ⟨"Dxyn", 0xF000, 0xD000⟩, ⟨"Ex9E", 0xF0FF, 0xE09E⟩, ⟨"ExA1", 0xF0FF, 0xE0A1⟩, ⟨"Fx07", 0xF0FF, 0xF007⟩,
   ⟨"Fx0A", 0xF0FF, 0xF00A⟩, ⟨"Fx15", 0xF0FF, 0xF015⟩, ⟨"Fx18", 0xF0FF, 0xF018⟩, ⟨"Fx1E", 0xF0FF, 0xF01E⟩,
   ⟨"Fx29", 0xF0FF, 0xF029⟩, ⟨"Fx33", 0xF0FF, 0xF033⟩, ⟨"Fx55", 0xF0FF, 0xF055⟩, ⟨"Fx65", 0xF0FF, 0xF065⟩]

/-- The opcode map (R78), with the masks of spec/opcode_table.json. -/
def opcodeRows : List OpcodeRow := opcodeRowsLow ++ opcodeRowsHigh

/-- The row of an instruction (R78). -/
def mnemonicOf : Instr → String
  | .cls => "00E0"
  | .ret => "00EE"
  | .jp _ => "1nnn"
  | .call _ => "2nnn"
  | .seImm _ _ => "3xnn"
  | .sneImm _ _ => "4xnn"
  | .seReg _ _ => "5xy0"
  | .ldImm _ _ => "6xnn"
  | .addImm _ _ => "7xnn"
  | .ldReg _ _ => "8xy0"
  | .orReg _ _ => "8xy1"
  | .andReg _ _ => "8xy2"
  | .xorReg _ _ => "8xy3"
  | .addReg _ _ => "8xy4"
  | .subReg _ _ => "8xy5"
  | .shrReg _ _ => "8xy6"
  | .subnReg _ _ => "8xy7"
  | .shlReg _ _ => "8xyE"
  | .sneReg _ _ => "9xy0"
  | .ldI _ => "Annn"
  | .jpV0 _ => "Bnnn"
  | .rnd _ _ => "Cxnn"
  | .drw _ _ _ => "Dxyn"
  | .skp _ => "Ex9E"
  | .sknp _ => "ExA1"
  | .ldVxDT _ => "Fx07"
  | .ldVxK _ => "Fx0A"
  | .ldDTVx _ => "Fx15"
  | .ldSTVx _ => "Fx18"
  | .addI _ => "Fx1E"
  | .ldF _ => "Fx29"
  | .ldB _ => "Fx33"
  | .storeRegs _ => "Fx55"
  | .loadRegs _ => "Fx65"

/-- The general registers an instruction may write, as the table of R22 lists them. -/
def writesReg : Instr → Reg → Prop
  | .ldImm x _, r | .addImm x _, r | .ldReg x _, r | .rnd x _, r | .ldVxDT x, r | .ldVxK x, r => r = x
  | .orReg x _, r | .andReg x _, r | .xorReg x _, r | .addReg x _, r => r = x ∨ r = 15
  | .subReg x _, r | .shrReg x _, r | .subnReg x _, r | .shlReg x _, r => r = x ∨ r = 15
  | .drw _ _ _, r => r = 15
  | .loadRegs x, r => r ≤ x
  | .cls, _ | .ret, _ | .jp _, _ | .call _, _ | .seImm _ _, _ | .sneImm _ _, _ | .seReg _ _, _ => False
  | .sneReg _ _, _ | .ldI _, _ | .jpV0 _, _ | .skp _, _ | .sknp _, _ | .ldDTVx _, _ | .ldSTVx _, _ => False
  | .addI _, _ | .ldF _, _ | .ldB _, _ | .storeRegs _, _ => False

/-- The number of host operations an instruction performs when it raises no error; none where it depends on the sprite
(R247). -/
def hostOpCount : Instr → Option Nat
  | .cls | .skp _ | .sknp _ | .ldVxDT _ | .ldVxK _ | .ldDTVx _ | .ldSTVx _ => some 1
  | .drw _ _ _ => none
  | .ret | .jp _ | .call _ | .seImm _ _ | .sneImm _ _ | .seReg _ _ | .ldImm _ _ | .addImm _ _ | .ldReg _ _ => some 0
  | .orReg _ _ | .andReg _ _ | .xorReg _ _ | .addReg _ _ | .subReg _ _ | .shrReg _ _ | .subnReg _ _ => some 0
  | .shlReg _ _ | .sneReg _ _ | .ldI _ | .jpV0 _ | .rnd _ _ | .addI _ | .ldF _ | .ldB _ => some 0
  | .storeRegs _ | .loadRegs _ => some 0

/-- The start column of a draw: V[F] is 0 when it is read (R191, R192). -/
def drawColumn (s : State) (x : Reg) : Nat := if x = 15 then 0 else (s.getV x).toNat % 64

/-- The start row of a draw: V[F] is 0 when it is read (R191, R192). -/
def drawRow (s : State) (y : Reg) : Nat := if y = 15 then 0 else (s.getV y).toNat % 32

/-- The sprite bit of row r and column c: bit 7 of the byte at I + r is column 0 (R191, D13). -/
def spriteBit (s : State) (r c : Nat) : Bool := (Memory.read s.mem (s.index.toNat + r)).getLsbD (7 - c)

/-- A draw of n rows XORs a 1 bit into the pixel (px, py): the pixel lies inside the sprite, which does not wrap
(R192, R193). -/
def drawCovers (s : State) (x y : Reg) (n : Nat) (px : Fin 64) (py : Fin 32) : Bool :=
  decide (drawColumn s x ≤ px.val ∧ px.val < drawColumn s x + 8) &&
  decide (drawRow s y ≤ py.val ∧ py.val < drawRow s y + n) &&
  spriteBit s (py.val - drawRow s y) (px.val - drawColumn s x)

/-- The plot event of row r and column c of a draw, if its bit is set and visible: the pixel's value after the XOR (R194). -/
def plotAt (s : State) (x y : Reg) (r c : Nat) : Option TraceEntry :=
  if h : drawColumn s x + c < 64 ∧ drawRow s y + r < 32 ∧ spriteBit s r c = true then
    some (.host (.plot ⟨drawColumn s x + c, h.1⟩ ⟨drawRow s y + r, h.2.1⟩
      (!s.pixel ⟨drawColumn s x + c, h.1⟩ ⟨drawRow s y + r, h.2.1⟩)))
  else none

/-- The plot events of a draw in drawing order: rows ascending, columns left to right (R194). -/
def drawPlots (s : State) (x y : Reg) (n : Nat) : List TraceEntry :=
  (List.range n).flatMap fun r => (List.range 8).filterMap fun c => plotAt s x y r c

/-- The latched pc of a halted machine is the address of what failed: a fetch that failed leaves the pc that failed it,
every other error a fetchable address (R230, R236). -/
def State.latchedPc (s : State) : Prop :=
  match s.status with
  | .running => True
  | .halted .pcUnderflow => s.pc.toNat < 0x200 ∧ s.lastOpValid = false
  | .halted .pcOverflow => 4095 ≤ s.pc.toNat ∧ s.lastOpValid = false
  | .halted _ => 0x200 ≤ s.pc.toNat ∧ s.pc.toNat < 4095 ∧ s.lastOpValid = true

/-- The invariant of the machine: memory is in its canonical form; pc is never above 0x10FE (R25); every stack slot is a
return address, never above 0x1000 (R102); a suspended step is one of a running machine at a fetchable pc (R251, R256); a
halted machine's pc is latched (R230). -/
structure State.Inv (s : State) : Prop where
  memory : s.mem.wf = true
  pcBound : s.pc.toNat ≤ 0x10FE
  slots : ∀ k : Fin 16, s.stack[k].toNat ≤ 0x1000
  suspended : s.waiting = true → s.fetchable
  latched : s.latchedPc

end Sys2Proof.Machine
end

