-- ==== Sys2Proof/Certificates/Slice0/Obligations.lean ====
section
/-! DEFINITION. The statements for the provers. Vocabulary: `keepsAllBut`, `keepsRegsBut`, `keepsMemOutside`, `raised`,
`State.fetchable`, `State.wordAtPc`, `drawCovers`, `drawPlots` and `State.Inv` of Sys2Proof/Safety.lean. Inside `exec`
pc has already been advanced, so the address of the instruction is pc - 2. -/

open Sys2Proof Sys2Proof.Machine

/-! ### Encoding, fetch and the step -/

/-- R73, R78, R81: the decoder reads every well-formed instruction back from its word, and from its two bytes whatever
follows them, leaving what follows. -/
def Obligations.DecodeOfEncodeIsIdentity : Prop :=
  ∀ i : Instr, i.wellFormed = true →
    decode (encode i) = .ok i ∧ ∀ rest : List Byte, decodeBytes (encodeBytes i ++ rest) = .ok (i, rest)

/-- R70, R78: a word that decodes is the word of the instruction it decodes to, and that instruction is well-formed. -/
def Obligations.EncodeOfDecodeIsIdentity : Prop :=
  ∀ (op : Word) (i : Instr), decode op = .ok i → i.wellFormed = true ∧ encode i = op

/-- R78, R81: every word either is exactly one row's of the opcode map and decodes to an instruction of that row, or is
no row's and is refused. That 9xyN is no row's is the spec's decision D9 (log entry 17). -/
def Obligations.EachWordHasOneRowOrIsIllegal : Prop :=
  ∀ op : Word,
    (∃ r ∈ opcodeRows, r.covers op = true ∧ (∀ q ∈ opcodeRows, q.covers op = true → q = r) ∧
      ∃ i, decode op = .ok i ∧ mnemonicOf i = r.mnemonic) ∨
    ((∀ r ∈ opcodeRows, r.covers op = false) ∧ ∃ e, decode op = .error e)

/-- R79: the decoder refuses exactly the words of the table of R79 (group 9 by the spec's decision D9, log entry 17), and
the step of a fetchable machine on one of them halts with IllegalInstruction at the same pc, with nothing changed but the
status, the debug latch and the recorded result. -/
def Obligations.IllegalWordsHaltTheMachine : Prop :=
  (∀ op : Word, (∃ e, decode op = .error e) ↔ IllegalWord op) ∧
  ∀ s : State, s.fetchable → IllegalWord s.wordAtPc →
    ∃ t, step s = .next t ∧ t.status = .halted .illegalInstruction ∧ t.pc = s.pc ∧
      t.trace = s.trace ++ [.result (.halted .illegalInstruction)] ∧
      keepsRegsBut [] s t ∧ keepsAllBut [.status, .debugLatch, .waiting, .trace] s t

/-- R71 to R73, R78: words written out from the formats decode to the instructions they stand for. -/
def Obligations.SampleWordsDecode : Prop :=
  decode 0b0000000011101110#16 = .ok .ret ∧
  decode 0b0001001000110100#16 = .ok (.jp 0x234#12) ∧
  decode 0b0110101000000010#16 = .ok (.ldImm 10 0x02#8) ∧
  decode 0b1000000100101110#16 = .ok (.shlReg 1 2) ∧
  decode 0b1101001101000101#16 = .ok (.drw 3 4 5) ∧
  decode 0b1111001001010101#16 = .ok (.storeRegs 2)

/-- R75, R77: the step of a fetchable machine whose word at pc, high byte first, decodes to i is exec of i at the state
in which that word is latched and pc advanced by 2, ended by recording the step result (or, where the step is suspended
in await_key, by recording nothing). -/
def Obligations.StepRunsTheDecodedInstruction : Prop :=
  ∀ (s : State) (i : Instr) (rest : List Byte), s.fetchable →
    decodeBytes (Memory.read s.mem s.pc.toNat :: Memory.read s.mem (s.pc.toNat + 1) :: rest) = .ok (i, rest) →
    step s = finishStep (exec i
      { s with pc := s.pc + 2, lastOp := s.wordAtPc, lastOpValid := true, waiting := false })

/-- R74: pc below 0x200 raises PcUnderflow and pc at or above 4095 PcOverflow; pc is unchanged, last_op_valid becomes 0,
the step result is recorded (R247, log entry 9) and nothing else changes, and no host event occurs. At every other pc the step raises
neither, and both fetched bytes lie in memory. -/
def Obligations.FetchChecksGuardTheProgramCounter : Prop :=
  ∀ s : State, s.status = .running →
    (s.pc.toNat < 0x200 → ∃ t, step s = .next t ∧ t.status = .halted .pcUnderflow ∧ t.lastOp = s.lastOp ∧
      t.lastOpValid = false ∧ t.trace = s.trace ++ [.result (.halted .pcUnderflow)] ∧
      keepsRegsBut [] s t ∧ keepsAllBut [.status, .debugLatch, .trace] s t) ∧
    (4095 ≤ s.pc.toNat → ∃ t, step s = .next t ∧ t.status = .halted .pcOverflow ∧ t.lastOp = s.lastOp ∧
      t.lastOpValid = false ∧ t.trace = s.trace ++ [.result (.halted .pcOverflow)] ∧
      keepsRegsBut [] s t ∧ keepsAllBut [.status, .debugLatch, .trace] s t) ∧
    (0x200 ≤ s.pc.toNat → s.pc.toNat < 4095 → s.pc.toNat + 1 ≤ 4095 ∧
      ∀ t, step s = .next t → t.status ≠ .halted .pcUnderflow ∧ t.status ≠ .halted .pcOverflow)

/-- R31 (the spec's decision D27, log entry 4): a step whose fetch succeeds leaves the fetched word in the debug latch,
valid, whatever the instruction does. -/
def Obligations.FetchedWordIsLatched : Prop :=
  ∀ s t : State, s.fetchable → step s = .next t → t.lastOp = s.wordAtPc ∧ t.lastOpValid = true

/-! ### Register file and ALU -/

/-- R130: 6xnn loads nn into V[x] and changes nothing else. -/
def Obligations.LoadImmediateSetsVx : Prop :=
  ∀ (x : Reg) (nn : Byte) (s : State), ∃ t, exec (.ldImm x nn) s = .next t ∧
    t.getV x = nn ∧ keepsRegsBut [x] s t ∧ keepsAllBut [] s t

/-- R131: 7xnn adds nn to V[x] modulo 256 and changes nothing else: no flag, for any x. -/
def Obligations.AddImmediateWrapsWithoutFlag : Prop :=
  ∀ (x : Reg) (nn : Byte) (s : State), ∃ t, exec (.addImm x nn) s = .next t ∧
    (t.getV x).toNat = ((s.getV x).toNat + nn.toNat) % 256 ∧ keepsRegsBut [x] s t ∧ keepsAllBut [] s t

/-- R132: 8xy0 copies V[y] into V[x] and changes nothing else. -/
def Obligations.CopySetsVx : Prop :=
  ∀ (x y : Reg) (s : State), ∃ t, exec (.ldReg x y) s = .next t ∧
    t.getV x = s.getV y ∧ keepsRegsBut [x] s t ∧ keepsAllBut [] s t

/-- R133, R134, R135: OR, AND and XOR write V[x] from the prior operands, then V[F] = 0, so V[F] is 0 also where x = 15;
nothing else changes. The order of the two writes is the spec's decision D10 (log entry 11). -/
def Obligations.LogicClearsTheFlag : Prop :=
  ∀ (x y : Reg) (s : State),
    (∃ t, exec (.orReg x y) s = .next t ∧ (x ≠ 15 → t.getV x = s.getV x ||| s.getV y) ∧ t.getV 15 = 0 ∧
      keepsRegsBut [x, 15] s t ∧ keepsAllBut [] s t) ∧
    (∃ t, exec (.andReg x y) s = .next t ∧ (x ≠ 15 → t.getV x = s.getV x &&& s.getV y) ∧ t.getV 15 = 0 ∧
      keepsRegsBut [x, 15] s t ∧ keepsAllBut [] s t) ∧
    (∃ t, exec (.xorReg x y) s = .next t ∧ (x ≠ 15 → t.getV x = s.getV x ^^^ s.getV y) ∧ t.getV 15 = 0 ∧
      keepsRegsBut [x, 15] s t ∧ keepsAllBut [] s t)

/-- R136: 8xy4 writes the sum of the prior operands modulo 256 to V[x], then the carry to V[F]: where x = 15 the carry
stays. Nothing else changes. The order of the two writes is the spec's decision D10 (log entry 11). -/
def Obligations.AddSetsCarry : Prop :=
  ∀ (x y : Reg) (s : State), ∃ t, exec (.addReg x y) s = .next t ∧
    (x ≠ 15 → (t.getV x).toNat = ((s.getV x).toNat + (s.getV y).toNat) % 256) ∧
    (t.getV 15).toNat = (if 255 < (s.getV x).toNat + (s.getV y).toNat then 1 else 0) ∧
    keepsRegsBut [x, 15] s t ∧ keepsAllBut [] s t

/-- R137, R139: 8xy5 and 8xy7 write the difference modulo 256 to V[x], then the no-borrow flag of the prior operands to
V[F] (equal operands give 1): where x = 15 the flag stays. Nothing else changes. The order of the two writes is the
spec's decision D10 (log entry 11). -/
def Obligations.SubtractionsSetNoBorrow : Prop :=
  ∀ (x y : Reg) (s : State),
    (∃ t, exec (.subReg x y) s = .next t ∧
      (x ≠ 15 → (t.getV x).toNat = ((s.getV x).toNat + 256 - (s.getV y).toNat) % 256) ∧
      (t.getV 15).toNat = (if (s.getV y).toNat ≤ (s.getV x).toNat then 1 else 0) ∧
      keepsRegsBut [x, 15] s t ∧ keepsAllBut [] s t) ∧
    (∃ t, exec (.subnReg x y) s = .next t ∧
      (x ≠ 15 → (t.getV x).toNat = ((s.getV y).toNat + 256 - (s.getV x).toNat) % 256) ∧
      (t.getV 15).toNat = (if (s.getV x).toNat ≤ (s.getV y).toNat then 1 else 0) ∧
      keepsRegsBut [x, 15] s t ∧ keepsAllBut [] s t)

/-- R138 and the spec's decision D10 (log entry 11): 8xy6 writes bit 0 of V[y] to V[F] first, then V[y] >> 1 to V[x], V[y]
read after the flag write. So for y other than 15 V[x] is the prior V[y] halved, also where x = 15, and for y = 15 it
is 0. -/
def Obligations.ShiftRightTakesItsSourceFromVy : Prop :=
  ∀ (x y : Reg) (s : State), ∃ t, exec (.shrReg x y) s = .next t ∧
    (y ≠ 15 → (t.getV x).toNat = (s.getV y).toNat / 2) ∧
    (y = 15 → t.getV x = 0) ∧
    (x ≠ 15 → (t.getV 15).toNat = (s.getV y).toNat % 2) ∧
    keepsRegsBut [x, 15] s t ∧ keepsAllBut [] s t

/-- R140 and the spec's decision D10 (log entry 11): 8xyE writes bit 7 of V[y] to V[F] first, then V[y] << 1 modulo 256 to
V[x], V[y] read after the flag write. For y = 15 the result is twice the flag just written. -/
def Obligations.ShiftLeftTakesItsSourceFromVy : Prop :=
  ∀ (x y : Reg) (s : State), ∃ t, exec (.shlReg x y) s = .next t ∧
    (y ≠ 15 → (t.getV x).toNat = (s.getV y).toNat * 2 % 256) ∧
    (y = 15 → (t.getV x).toNat = (s.getV 15).toNat / 128 * 2) ∧
    (x ≠ 15 → (t.getV 15).toNat = (s.getV y).toNat / 128) ∧
    keepsRegsBut [x, 15] s t ∧ keepsAllBut [] s t

/-- R141, with the draw as the spec's decision D16 (log entry 7): Cxnn writes the random byte AND nn to V[x] and consumes
exactly one byte of the random input; a byte that has been supplied is the one used. Nothing else changes. -/
def Obligations.RandomIsMaskedAndConsumed : Prop :=
  ∀ (x : Reg) (nn : Byte) (s : State), ∃ t, exec (.rnd x nn) s = .next t ∧
    t.getV x = s.randomByte &&& nn ∧
    (∀ r rest, s.inputs.random = r :: rest → t.getV x = r &&& nn ∧ t.inputs.random = rest) ∧
    t.inputs = { s.inputs with random := s.inputs.random.tail, draws := s.inputs.draws + 1 } ∧
    keepsRegsBut [x] s t ∧ keepsAllBut [.inputs] s t

/-- R22: an instruction writes no general register but those of its row of the table of R22. -/
def Obligations.OnlyListedInstructionsWriteRegisters : Prop :=
  ∀ (i : Instr) (s t : State) (r : Reg), exec i s = .next t → ¬ writesReg i r → t.getV r = s.getV r

/-! ### Control transfer -/

/-- R100: 00EE on an empty stack raises StackUnderflow; else sp is decremented, pc is the popped slot, every slot keeps its
value, and nothing else changes. -/
def Obligations.ReturnPopsTheCallStack : Prop :=
  ∀ s : State,
    (s.sp.val = 0 → ∃ t, exec .ret s = .next t ∧ raised .stackUnderflow s t) ∧
    (∀ k : Fin 16, s.sp.val = k.val + 1 → ∃ t, exec .ret s = .next t ∧ t.sp.val = k.val ∧ t.pc = s.stack[k] ∧
      (∀ j : Fin 16, t.stack[j] = s.stack[j]) ∧ keepsRegsBut [] s t ∧ keepsAllBut [.pc, .stack] s t)

/-- R101: 1nnn to the address of this instruction raises InfiniteLoop; every other 1nnn sets pc to nnn and changes nothing
else. -/
def Obligations.JumpGoesToItsTargetOrHaltsOnItself : Prop :=
  ∀ (nnn : Addr12) (s : State),
    (nnn.setWidth 16 = s.pc - 2 → ∃ t, exec (.jp nnn) s = .next t ∧ raised .infiniteLoop s t) ∧
    (nnn.setWidth 16 ≠ s.pc - 2 → ∃ t, exec (.jp nnn) s = .next t ∧ t.pc.toNat = nnn.toNat ∧
      keepsRegsBut [] s t ∧ keepsAllBut [.pc] s t)

/-- R102: 2nnn on a full stack raises StackOverflow; else slot sp receives the address of the next instruction, the other
slots keep their values, sp is incremented, pc is nnn, and nothing else changes. -/
def Obligations.CallPushesTheReturnAddress : Prop :=
  ∀ (nnn : Addr12) (s : State),
    (s.sp.val = 16 → ∃ t, exec (.call nnn) s = .next t ∧ raised .stackOverflow s t) ∧
    (∀ k : Fin 16, s.sp.val = k.val → ∃ t, exec (.call nnn) s = .next t ∧ t.stack[k] = s.pc ∧
      (∀ j : Fin 16, j ≠ k → t.stack[j] = s.stack[j]) ∧ t.sp.val = k.val + 1 ∧ t.pc.toNat = nnn.toNat ∧
      keepsRegsBut [] s t ∧ keepsAllBut [.pc, .stack] s t)

/-- R100, R102: a return from any state that has the stack a call left goes to the instruction after the call, with the
stack pointer as before the call. -/
def Obligations.ReturnUndoesCall : Prop :=
  ∀ (nnn : Addr12) (s t u : State), s.sp.val < 16 → exec (.call nnn) s = .next t → u.sp = t.sp → u.stack = t.stack →
    ∃ w, exec .ret u = .next w ∧ w.pc = s.pc ∧ w.sp = s.sp ∧ w.status = u.status

/-- R103: Bnnn sets pc to nnn + V[0], which does not wrap, and changes nothing else; it never raises an error. -/
def Obligations.ComputedJumpAddsV0 : Prop :=
  ∀ (nnn : Addr12) (s : State), ∃ t, exec (.jpV0 nnn) s = .next t ∧
    t.pc.toNat = nnn.toNat + (s.getV 0).toNat ∧ keepsRegsBut [] s t ∧ keepsAllBut [.pc] s t

/-- R104, R105: 3xnn skips exactly when V[x] is nn and 4xnn exactly when it is not; a skip adds 2 to pc (modulo 65536);
nothing else changes. -/
def Obligations.ImmediateSkipsCompareVxWithByte : Prop :=
  ∀ (x : Reg) (nn : Byte) (s : State),
    (∃ t, exec (.seImm x nn) s = .next t ∧ t.pc = (if s.getV x = nn then s.pc + 2 else s.pc) ∧
      keepsRegsBut [] s t ∧ keepsAllBut [.pc] s t) ∧
    (∃ t, exec (.sneImm x nn) s = .next t ∧ t.pc = (if s.getV x = nn then s.pc else s.pc + 2) ∧
      keepsRegsBut [] s t ∧ keepsAllBut [.pc] s t)

/-- R106, R107: 5xy0 skips exactly when V[x] is V[y] and 9xy0 exactly when it is not; nothing else changes. -/
def Obligations.RegisterSkipsCompareVxWithVy : Prop :=
  ∀ (x y : Reg) (s : State),
    (∃ t, exec (.seReg x y) s = .next t ∧ t.pc = (if s.getV x = s.getV y then s.pc + 2 else s.pc) ∧
      keepsRegsBut [] s t ∧ keepsAllBut [.pc] s t) ∧
    (∃ t, exec (.sneReg x y) s = .next t ∧ t.pc = (if s.getV x = s.getV y then s.pc else s.pc + 2) ∧
      keepsRegsBut [] s t ∧ keepsAllBut [.pc] s t)

/-- R24: what pc holds. After reset 0x0200; while an instruction executes fetch_pc + 2; after a step that halted its
fetch_pc; after a step that did not halt and is not suspended in await_key one of fetch_pc + 2, fetch_pc + 4 (a skip), the
target of the jump or call at pc, or the popped return address of the return at pc. -/
def Obligations.ProgramCounterAfterAStep : Prop :=
  State.reset.pc = 0x0200 ∧
  (∀ (s : State) (op : Word), (s.afterFetch op).pc = s.pc + 2) ∧
  (∀ (s t : State) (k : ErrorKind), step s = .next t → t.status = .halted k → t.pc = s.pc) ∧
  ∀ s t : State, step s = .next t → t.status = .running → t.waiting = false →
    t.pc = s.pc + 2 ∨
    (t.pc = s.pc + 4 ∧ ∃ i, decode s.wordAtPc = .ok i ∧
      mnemonicOf i ∈ ["3xnn", "4xnn", "5xy0", "9xy0", "Ex9E", "ExA1"]) ∨
    (∃ nnn, (decode s.wordAtPc = .ok (.jp nnn) ∨ decode s.wordAtPc = .ok (.call nnn)) ∧ t.pc.toNat = nnn.toNat) ∨
    (∃ nnn, decode s.wordAtPc = .ok (.jpV0 nnn) ∧ t.pc.toNat = nnn.toNat + (s.getV 0).toNat) ∨
    (decode s.wordAtPc = .ok .ret ∧ ∃ k : Fin 16, s.sp.val = k.val + 1 ∧ t.pc = s.stack[k])

/-- R26, R27: only 2nnn and 00EE change the stack: a call adds one entry or raises, a return removes one or raises. -/
def Obligations.OnlyCallAndReturnMoveTheStack : Prop :=
  ∀ (i : Instr) (s t : State), exec i s = .next t →
    Part.same s t .stack ∨
    ((∃ nnn, i = .call nnn) ∧ t.sp.val = s.sp.val + 1) ∨
    (i = .ret ∧ t.sp.val + 1 = s.sp.val ∧ t.stack = s.stack)

/-! ### Index register and memory -/

/-- R160: Annn sets I to nnn and changes nothing else. -/
def Obligations.LoadIndexSetsI : Prop :=
  ∀ (nnn : Addr12) (s : State), ∃ t, exec (.ldI nnn) s = .next t ∧
    t.index.toNat = nnn.toNat ∧ keepsRegsBut [] s t ∧ keepsAllBut [.index] s t

/-- R161 and the spec's decision D17 (log entry 21): Fx1E adds V[x] to I modulo 65536, writes no flag and changes nothing
else. -/
def Obligations.AddIndexWrapsWithoutFlag : Prop :=
  ∀ (x : Reg) (s : State), ∃ t, exec (.addI x) s = .next t ∧
    t.index.toNat = (s.index.toNat + (s.getV x).toNat) % 65536 ∧ keepsRegsBut [] s t ∧ keepsAllBut [.index] s t

/-- R162: Fx29 sets I to five times the digit V[x] and changes nothing else, or raises IllegalDigit where V[x] is above
15. -/
def Obligations.GlyphAddressOrIllegalDigit : Prop :=
  ∀ (x : Reg) (s : State),
    ((s.getV x).toNat ≤ 15 → ∃ t, exec (.ldF x) s = .next t ∧ t.index.toNat = (s.getV x).toNat * 5 ∧
      keepsRegsBut [] s t ∧ keepsAllBut [.index] s t) ∧
    (15 < (s.getV x).toNat → ∃ t, exec (.ldF x) s = .next t ∧ raised .illegalDigit s t)

/-- R163, with I unchanged as the spec's decision D24 (log entry 22): Fx33 stores the hundreds, tens and units of V[x] at
I, I + 1 and I + 2, changes no other byte and nothing else, I included; where I is above 4093 it raises IndexOverflow.
The memory is assumed in its canonical form, which every step keeps, and stays so. -/
def Obligations.BcdStoresThreeDigitsAtI : Prop :=
  ∀ (x : Reg) (s : State), s.mem.wf = true →
    (s.index.toNat ≤ 4093 → ∃ t, exec (.ldB x) s = .next t ∧
      (Memory.read t.mem s.index.toNat).toNat = (s.getV x).toNat / 100 ∧
      (Memory.read t.mem (s.index.toNat + 1)).toNat = (s.getV x).toNat / 10 % 10 ∧
      (Memory.read t.mem (s.index.toNat + 2)).toNat = (s.getV x).toNat % 10 ∧
      keepsMemOutside s.index.toNat 3 s t ∧ t.mem.wf = true ∧
      keepsRegsBut [] s t ∧ keepsAllBut [.mem] s t) ∧
    (4093 < s.index.toNat → ∃ t, exec (.ldB x) s = .next t ∧ raised .indexOverflow s t)

/-- R164: Fx55 stores V[0] to V[x] at I to I + x, changes no other byte, advances I by x + 1 and changes nothing else;
where I + x is above 4095 it raises IndexOverflow. The memory is assumed in its canonical form, which every step keeps,
and stays so. -/
def Obligations.StoreRegistersAtI : Prop :=
  ∀ (x : Reg) (s : State), s.mem.wf = true →
    (s.index.toNat + x.val ≤ 4095 → ∃ t, exec (.storeRegs x) s = .next t ∧
      (∀ k : Reg, k ≤ x → Memory.read t.mem (s.index.toNat + k.val) = s.getV k) ∧
      keepsMemOutside s.index.toNat (x.val + 1) s t ∧ t.mem.wf = true ∧
      t.index.toNat = s.index.toNat + x.val + 1 ∧
      keepsRegsBut [] s t ∧ keepsAllBut [.mem, .index] s t) ∧
    (4095 < s.index.toNat + x.val → ∃ t, exec (.storeRegs x) s = .next t ∧ raised .indexOverflow s t)

/-- R165, its pseudocode and errors: Fx65 loads V[0] to V[x] from I to I + x, advances I by x + 1 and changes nothing else,
no byte of memory and no register above x; where I + x is above 4095 it raises IndexOverflow. -/
def Obligations.LoadRegistersFromI : Prop :=
  ∀ (x : Reg) (s : State),
    (s.index.toNat + x.val ≤ 4095 → ∃ t, exec (.loadRegs x) s = .next t ∧
      (∀ k : Reg, k ≤ x → t.getV k = Memory.read s.mem (s.index.toNat + k.val)) ∧
      (∀ k : Reg, x < k → t.getV k = s.getV k) ∧
      t.index.toNat = s.index.toNat + x.val + 1 ∧ keepsAllBut [.index] s t) ∧
    (4095 < s.index.toNat + x.val → ∃ t, exec (.loadRegs x) s = .next t ∧ raised .indexOverflow s t)

/-- R165's round trip: Fx55, then any change of the registers, then Fx65 at the same I restores V[0] to V[x] and leaves I
at I + x + 1. -/
def Obligations.StoreThenLoadRestoresRegisters : Prop :=
  ∀ (x : Reg) (s t u : State), s.mem.wf = true → s.index.toNat + x.val ≤ 4095 →
    exec (.storeRegs x) s = .next t → u.mem = t.mem → u.index = s.index →
    ∃ w, exec (.loadRegs x) u = .next w ∧ (∀ k : Reg, k ≤ x → w.getV k = s.getV k) ∧
      w.index.toNat = s.index.toNat + x.val + 1

/-- R51: only Fx33 and Fx55 write memory, and only the bytes of their window, which lies inside memory. -/
def Obligations.OnlyStoresWriteMemory : Prop :=
  ∀ (i : Instr) (s t : State), s.mem.wf = true → exec i s = .next t →
    Part.same s t .mem ∨
    ((∃ x, i = .ldB x) ∧ s.index.toNat + 3 ≤ 4096 ∧ keepsMemOutside s.index.toNat 3 s t) ∨
    (∃ x : Reg, i = .storeRegs x ∧ s.index.toNat + (x.val + 1) ≤ 4096 ∧
      keepsMemOutside s.index.toNat (x.val + 1) s t)

/-- R62 (the spec's decision D28, log entry 25): the next fetch at the place two registers were stored to reads them as the
instruction, high byte first. -/
def Obligations.StoredBytesAreFetched : Prop :=
  ∀ (x : Reg) (s t u : State), s.mem.wf = true → s.index.toNat + x.val ≤ 4095 → 1 ≤ x.val →
    exec (.storeRegs x) s = .next t → u.mem = t.mem → u.pc = s.index →
    u.fetchOp = .ok (wordOfBytes (s.getV 0) (s.getV 1))

/-- R23: only Annn, Fx1E, Fx29, Fx55 and Fx65 change I. -/
def Obligations.OnlyListedInstructionsWriteIndex : Prop :=
  ∀ (i : Instr) (s t : State), exec i s = .next t → t.index ≠ s.index →
    mnemonicOf i ∈ ["Annn", "Fx1E", "Fx29", "Fx55", "Fx65"]

/-! ### Display -/

/-- R190, with the order of clearing and event as the spec's decision D26 (log entry 16): 00E0 clears every pixel, emits one
clear event and changes nothing else. -/
def Obligations.ClearScreenClearsEveryPixel : Prop :=
  ∀ s : State, ∃ t, exec .cls s = .next t ∧ (∀ (px : Fin 64) (py : Fin 32), t.pixel px py = false) ∧
    t.trace = s.trace ++ [.host .clear] ∧ keepsRegsBut [] s t ∧ keepsAllBut [.display, .trace] s t

/-- R191 and the spec's decision D12 (log entry 13): a draw of at least one row whose last row address passes 4095 raises
IndexOverflow and changes nothing else, V[F] and the display included. -/
def Obligations.DrawChecksEveryRowAddress : Prop :=
  ∀ (x y : Reg) (n : Nat) (s : State), 1 ≤ n → 4095 < s.index.toNat + n - 1 →
    ∃ t, exec (.drw x y n) s = .next t ∧ raised .indexOverflow s t

/-- R191, R192, R193, with the spec's decisions D10, D13 and D14 (log entries 11, 14, 15): a draw whose rows lie in memory,
or of no row, inverts exactly the pixels its visible 1 bits cover, sets V[F] to 1 if one of them was set and to 0
otherwise, and changes nothing else but the trace. The start coordinates wrap, the sprite is clipped, and a coordinate
register 15 reads as 0. -/
def Obligations.DrawInvertsTheCoveredPixels : Prop :=
  ∀ (x y : Reg) (n : Nat) (s : State), n = 0 ∨ s.index.toNat + n - 1 ≤ 4095 →
    ∃ t, exec (.drw x y n) s = .next t ∧
      (∀ (px : Fin 64) (py : Fin 32), t.pixel px py = (s.pixel px py ^^ drawCovers s x y n px py)) ∧
      ((∃ (px : Fin 64) (py : Fin 32), drawCovers s x y n px py = true ∧ s.pixel px py = true) → t.getV 15 = 1) ∧
      ((∀ (px : Fin 64) (py : Fin 32), drawCovers s x y n px py = true → s.pixel px py = false) → t.getV 15 = 0) ∧
      keepsRegsBut [15] s t ∧ keepsAllBut [.display, .trace] s t

/-- R194 and the spec's decision D15 (log entry 16), with bit 7 the leftmost (D13, log entry 14, PRESUMED), a coordinate
register 15 read as 0 (D10, log entry 11) and a draw of no row legal (D14, log entry 15): a draw as in
DrawInvertsTheCoveredPixels emits one plot event per visible 1 bit with the value of
its pixel after the XOR, rows top to bottom, in a row left to right, and no other event. -/
def Obligations.DrawReportsEveryPixelInOrder : Prop :=
  ∀ (x y : Reg) (n : Nat) (s : State), n = 0 ∨ s.index.toNat + n - 1 ≤ 4095 →
    ∃ t, exec (.drw x y n) s = .next t ∧ t.trace = s.trace ++ drawPlots s x y n

/-- R193, read by the pseudocode of R191 (log entry 28): drawing the same sprite a second time restores the display, and
gives V[F] = 1 exactly where some pixel under a visible 1 bit was 0 before the first draw (on a clear display: where the
sprite has a visible 1 bit). (Register 15 as a coordinate, the bit order and a draw of no row are the spec's decisions
D10, D13 and D14, log entries 11, 14 and 15.) -/
def Obligations.DrawingTwiceRestoresTheDisplay : Prop :=
  ∀ (x y : Reg) (n : Nat) (s t : State), n = 0 ∨ s.index.toNat + n - 1 ≤ 4095 → exec (.drw x y n) s = .next t →
    ∃ u, exec (.drw x y n) t = .next u ∧ (∀ (px : Fin 64) (py : Fin 32), u.pixel px py = s.pixel px py) ∧
      ((∃ (px : Fin 64) (py : Fin 32), drawCovers s x y n px py = true ∧ s.pixel px py = false) → u.getV 15 = 1) ∧
      ((∀ (px : Fin 64) (py : Fin 32), drawCovers s x y n px py = true → s.pixel px py = true) → u.getV 15 = 0)

/-- R28: only 00E0 and Dxyn change the display. -/
def Obligations.OnlyClearAndDrawChangeTheDisplay : Prop :=
  ∀ (i : Instr) (s t : State) (px : Fin 64) (py : Fin 32), exec i s = .next t → t.pixel px py ≠ s.pixel px py →
    mnemonicOf i ∈ ["00E0", "Dxyn"]

/-! ### Keypad, timers and the host -/

/-- R210, R211, with no call on an error as the spec's decision D29 (log entry 23): for V[x] at most 15, Ex9E and ExA1 make
one check_key call for that key and skip exactly when the answer is true, respectively false; for V[x] above 15 they
raise BadKey. The answer is the host's, a free value. That an answer the environment has supplied is the one used, and how
the model's own field inputs goes on (the answer consumed, the counter up by one), is the model's choice (log entry 7). -/
def Obligations.KeySkipsFollowTheHostsAnswer : Prop :=
  ∀ (x : Reg) (s : State),
    (∀ k : Key, (s.getV x).toNat = k.val →
      (∃ t, exec (.skp x) s = .next t ∧ t.pc = (if s.keyAnswer k then s.pc + 2 else s.pc) ∧
        t.trace = s.trace ++ [.host (.checkKey k (s.keyAnswer k))] ∧
        t.inputs = { s.inputs with keyDown := s.inputs.keyDown.tail, draws := s.inputs.draws + 1 } ∧
        keepsRegsBut [] s t ∧ keepsAllBut [.pc, .trace, .inputs] s t) ∧
      (∃ t, exec (.sknp x) s = .next t ∧ t.pc = (if s.keyAnswer k then s.pc else s.pc + 2) ∧
        t.trace = s.trace ++ [.host (.checkKey k (s.keyAnswer k))] ∧
        t.inputs = { s.inputs with keyDown := s.inputs.keyDown.tail, draws := s.inputs.draws + 1 } ∧
        keepsRegsBut [] s t ∧ keepsAllBut [.pc, .trace, .inputs] s t) ∧
      (∀ b rest, s.inputs.keyDown = b :: rest → s.keyAnswer k = b)) ∧
    (15 < (s.getV x).toNat →
      (∃ t, exec (.skp x) s = .next t ∧ raised .badKey s t) ∧
      (∃ t, exec (.sknp x) s = .next t ∧ raised .badKey s t))

/-- R212, with the answer as the spec's decision D31 (log entry 7): Fx07 makes one get_delay_timer call and writes the
host's answer to V[x]; nothing else changes. An answer that has been supplied is the one used. -/
def Obligations.DelayTimerIsReadFromTheHost : Prop :=
  ∀ (x : Reg) (s : State), ∃ t, exec (.ldVxDT x) s = .next t ∧ t.getV x = s.delayAnswer ∧
    (∀ b rest, s.inputs.delay = b :: rest → t.getV x = b) ∧
    t.trace = s.trace ++ [.host (.getDelayTimer s.delayAnswer)] ∧
    t.inputs = { s.inputs with delay := s.inputs.delay.tail, draws := s.inputs.draws + 1 } ∧
    keepsRegsBut [x] s t ∧ keepsAllBut [.trace, .inputs] s t

/-- R214, R215: Fx15 and Fx18 make one call that passes V[x] to the host and change nothing else. -/
def Obligations.TimerWritesPassVxToTheHost : Prop :=
  ∀ (x : Reg) (s : State),
    (∃ t, exec (.ldDTVx x) s = .next t ∧ t.trace = s.trace ++ [.host (.setDelayTimer (s.getV x))] ∧
      keepsRegsBut [] s t ∧ keepsAllBut [.trace] s t) ∧
    (∃ t, exec (.ldSTVx x) s = .next t ∧ t.trace = s.trace ++ [.host (.setSoundTimer (s.getV x))] ∧
      keepsRegsBut [] s t ∧ keepsAllBut [.trace] s t)

/-- R213: where the host has supplied a key, Fx0A makes one await_key call and writes the key, zero-extended, to V[x];
nothing else changes, the timers' calls included (the spec's decisions D19 and D20, log entries 24 and 27). How the key is
supplied and how the model's own field inputs goes on are the model's choice (log entry 7). -/
def Obligations.KeyWaitWritesTheSuppliedKey : Prop :=
  ∀ (x : Reg) (k : Key) (rest : List Key) (s : State), s.inputs.awaited = k :: rest →
    ∃ t, exec (.ldVxK x) s = .next t ∧ (t.getV x).toNat = k.val ∧
      t.trace = s.trace ++ [.host (.awaitKey k)] ∧
      t.inputs = { s.inputs with awaited := rest, draws := s.inputs.draws + 1 } ∧
      keepsRegsBut [x] s t ∧ keepsAllBut [.trace, .inputs] s t

/-- R251, R256 and the spec's decision D30 (log entry 8): where the host has supplied no key, the step of a fetchable
machine at an Fx0A does not end: pc stays, nothing is recorded and all state is kept; and once the host supplies a key,
the next step completes the instruction with it. -/
def Obligations.KeyWaitIsSuspendedUntilAKeyArrives : Prop :=
  ∀ (x : Reg) (k : Key) (s : State), s.fetchable → decode s.wordAtPc = .ok (.ldVxK x) → s.inputs.awaited = [] →
    ∃ t, step s = .next t ∧ t.waiting = true ∧ t.pc = s.pc ∧
      keepsRegsBut [] s t ∧ keepsAllBut [.waiting, .debugLatch] s t ∧
      ∃ u, step (t.supplyKey k) = .next u ∧ u.waiting = false ∧ u.pc = s.pc + 2 ∧ (u.getV x).toNat = k.val ∧
        u.trace = s.trace ++ [.host (.awaitKey k), .result .ok] ∧
        keepsRegsBut [x] s u ∧ keepsAllBut [.waiting, .debugLatch, .pc, .trace, .inputs] s u

/-- R247: a step that is not suspended adds to the trace its host operations and then exactly one step result, that of
its final status. A step that raised an error performs no host operation; one that did not performs as many as its
instruction's entry in R247 (a draw's are stated by DrawReportsEveryPixelInOrder). -/
def Obligations.StepTraceIsHostOperationsThenResult : Prop :=
  ∀ s t : State, step s = .next t → t.waiting = false →
    ∃ evs : List HostEvent, t.trace = s.trace ++ evs.map .host ++ [.result t.status.stepResult] ∧
      (∀ k, t.status = .halted k → evs = []) ∧
      (∀ i n, t.status = .running → decode s.wordAtPc = .ok i → hostOpCount i = some n → evs.length = n)

/-! ### Errors, status and the machine as a whole -/

/-- R232: a step that raises an error changes exactly the status, pc (to fetch_pc, where it already was) and the debug
latch: registers, I, sp, the slots, memory and the display are unchanged, it emits no host event (only its result is
recorded: R247, log entry 9) and it consumes no random byte or answer. A step that was suspended in await_key may end so,
a step that was not suspended does not become so (log entry 8). -/
def Obligations.ErrorStepsChangeNothingElse : Prop :=
  ∀ (s t : State) (k : ErrorKind), step s = .next t → t.status = .halted k →
    t.pc = s.pc ∧ t.trace = s.trace ++ [.result (.halted k)] ∧ (s.waiting = false → t.waiting = false) ∧
    keepsRegsBut [] s t ∧ keepsAllBut [.status, .debugLatch, .waiting, .trace] s t

/-- R55, R59, R231: a running machine always has a next state. Every error is a next state, no instruction is refused, and
the bound checks keep every access inside memory, so no step ends in a fault (log entry 32). At an Fx0A for which the host
has supplied no key the spec's step does not end (R251, the spec's decision D30): the next state there is the model's
stutter, a suspended step with pc unchanged and no result (log entry 8, DESIGN CHOICE), as KeyWaitIsSuspendedUntilAKeyArrives
states; no completed step is claimed. -/
def Obligations.RunningMachinesAlwaysStep : Prop :=
  ∀ s : State, s.status = .running → ∃ t, step s = .next t

/-- R237 and the spec's decision D3 (log entry 12): a halted machine has no step, and its step port answers the same kind
again, with its status code, and changes nothing. -/
def Obligations.HaltedMachinesHaveNoStep : Prop :=
  ∀ (s : State) (k : ErrorKind), s.status = .halted k →
    step s = .refused (.stepWhileHalted k) ∧ s.respond = (s, some ⟨.halted k, (Status.halted k).code⟩)

/-- R270, the values the source states: after construction every pixel is 0, pc is 0x200, sp is 0, the status is Running,
and no host event has been emitted (the spec's decision D25, log entry 9); the next step fetches at 0x200. -/
def Obligations.ResetLeavesTheStatedValues : Prop :=
  (∀ (px : Fin 64) (py : Fin 32), State.reset.pixel px py = false) ∧ State.reset.pc = 0x200 ∧
  State.reset.sp.val = 0 ∧ State.reset.status = .running ∧ State.reset.trace = [] ∧
  State.reset.fetchOp = .ok (wordOfBytes (Memory.read State.reset.mem 0x200) (Memory.read State.reset.mem 0x201))

/-- The values at reset that are the spec's own decisions D4, D5, D18 and D27 (log entries 2, 3, 4, 5): registers, I,
stack slots, the debug latch and the memory outside the font are 0. -/
def Obligations.ResetLeavesTheDecidedValues : Prop :=
  (∀ r : Reg, State.reset.getV r = 0) ∧ State.reset.index = 0 ∧ (∀ k : Fin 16, State.reset.stack[k] = 0) ∧
  State.reset.lastOp = 0 ∧ State.reset.lastOpValid = false ∧
  ∀ a : Nat, 80 ≤ a → Memory.read State.reset.mem a = 0

/-- R56, R270: construction with any FONT puts its bytes at 0x000 to 0x04F, and the machine starts Running at 0x200 with
sp 0 and canonical memory. -/
def Obligations.ConstructionLoadsTheFont : Prop :=
  ∀ p : Params, (∀ a : Fin 80, Memory.read (construct p).mem a.val = p.font[a]) ∧
    (construct p).pc = 0x200 ∧ (construct p).sp.val = 0 ∧ (construct p).status = .running ∧
    (construct p).mem.wf = true

/-- R274, and R273 with the spec's decision D22 (log entry 26): a buffer of at most 3584 bytes is copied verbatim to 0x200
on and nothing else changes; a larger one is rejected. -/
def Obligations.ProgramLoadCopiesTheBuffer : Prop :=
  ∀ (s : State) (buf : List Byte), s.mem.wf = true →
    (buf.length ≤ 3584 → ∃ t, s.loadProgram buf = .ok t ∧
      (∀ (k : Nat) (h : k < buf.length), Memory.read t.mem (0x200 + k) = buf[k]) ∧
      keepsMemOutside 0x200 buf.length s t ∧ t.mem.wf = true ∧
      keepsRegsBut [] s t ∧ keepsAllBut [.mem] s t) ∧
    (3584 < buf.length → s.loadProgram buf = .error .tooLarge)

/-- R30 and the spec's decision D2 (log entry 20): the status code is 0 for Running and 1 to 9 for the error kinds, and no
two statuses share a code. -/
def Obligations.StatusCodesAreDistinct : Prop :=
  Status.running.code = 0 ∧ (∀ a : Status, a.code.toNat ≤ 9) ∧ ∀ a b : Status, a.code = b.code → a = b

/-- The invariant of the machine holds after construction (R25, R27, R230). -/
def Obligations.ResetMeetsTheInvariant : Prop := State.reset.Inv

/-- R25, R102, R230, R251 and the canonical form of memory: every step keeps the invariant of the machine. -/
def Obligations.StepKeepsTheInvariant : Prop := ∀ s t : State, s.Inv → step s = .next t → t.Inv

/-- R30, R31, R258 (the spec's decisions D2 and D27, log entries 20 and 4): the debug port gives pc, I, sp, last_op with
last_op_valid, the 16 slots and the status code of any state; and the response to a completed step of a running machine
carries the step result and the status code of the state after it. A fetch error leaves last_op readable there. -/
def Obligations.PortsReadTheStatusAndTheDebugLatch : Prop :=
  (∀ s : State, s.dump.pc = s.pc ∧ s.dump.index = s.index ∧ s.dump.sp = s.sp ∧ s.dump.lastOp = s.lastOp ∧
    s.dump.lastOpValid = s.lastOpValid ∧ (∀ k : Fin 16, s.dump.slots[k] = s.stack[k]) ∧
    s.dump.statusCode = s.status.code) ∧
  (∀ s t : State, s.status = .running → step s = .next t → t.waiting = false →
    s.respond = (t, some ⟨t.status.stepResult, t.status.code⟩)) ∧
  ∀ s t : State, s.status = .running → s.pc.toNat < 0x200 ∨ 4095 ≤ s.pc.toNat → step s = .next t →
    t.dump.lastOp = s.dump.lastOp ∧ t.dump.lastOpValid = false
end

