-- ==== Sys2Proof/Laws/State.lean ====
section
/-! SUPPORT. What each named update of the state does to each field, one lemma per field per update, and what reading
a register or a pixel gives after an update. -/

namespace Sys2Proof.Machine

variable (s : State)

/-! ### After writing a register: `State.setV` -/

@[simp] theorem State.setV_v (r : Reg) (b : Byte) : (s.setV r b).v = s.v.set r.val b r.isLt := rfl
@[simp] theorem State.setV_index (r : Reg) (b : Byte) : (s.setV r b).index = s.index := rfl
@[simp] theorem State.setV_pc (r : Reg) (b : Byte) : (s.setV r b).pc = s.pc := rfl
@[simp] theorem State.setV_sp (r : Reg) (b : Byte) : (s.setV r b).sp = s.sp := rfl
@[simp] theorem State.setV_stack (r : Reg) (b : Byte) : (s.setV r b).stack = s.stack := rfl
@[simp] theorem State.setV_display (r : Reg) (b : Byte) : (s.setV r b).display = s.display := rfl
@[simp] theorem State.setV_status (r : Reg) (b : Byte) : (s.setV r b).status = s.status := rfl
@[simp] theorem State.setV_lastOp (r : Reg) (b : Byte) : (s.setV r b).lastOp = s.lastOp := rfl
@[simp] theorem State.setV_lastOpValid (r : Reg) (b : Byte) : (s.setV r b).lastOpValid = s.lastOpValid := rfl
@[simp] theorem State.setV_mem (r : Reg) (b : Byte) : (s.setV r b).mem = s.mem := rfl
@[simp] theorem State.setV_waiting (r : Reg) (b : Byte) : (s.setV r b).waiting = s.waiting := rfl
@[simp] theorem State.setV_trace (r : Reg) (b : Byte) : (s.setV r b).trace = s.trace := rfl
@[simp] theorem State.setV_inputs (r : Reg) (b : Byte) : (s.setV r b).inputs = s.inputs := rfl

/-! ### After writing the flag register: `State.setFlag` -/

@[simp] theorem State.setFlag_v (b : Byte) : (s.setFlag b).v = s.v.set flagReg.val b flagReg.isLt := rfl
@[simp] theorem State.setFlag_index (b : Byte) : (s.setFlag b).index = s.index := rfl
@[simp] theorem State.setFlag_pc (b : Byte) : (s.setFlag b).pc = s.pc := rfl
@[simp] theorem State.setFlag_sp (b : Byte) : (s.setFlag b).sp = s.sp := rfl
@[simp] theorem State.setFlag_stack (b : Byte) : (s.setFlag b).stack = s.stack := rfl
@[simp] theorem State.setFlag_display (b : Byte) : (s.setFlag b).display = s.display := rfl
@[simp] theorem State.setFlag_status (b : Byte) : (s.setFlag b).status = s.status := rfl
@[simp] theorem State.setFlag_lastOp (b : Byte) : (s.setFlag b).lastOp = s.lastOp := rfl
@[simp] theorem State.setFlag_lastOpValid (b : Byte) : (s.setFlag b).lastOpValid = s.lastOpValid := rfl
@[simp] theorem State.setFlag_mem (b : Byte) : (s.setFlag b).mem = s.mem := rfl
@[simp] theorem State.setFlag_waiting (b : Byte) : (s.setFlag b).waiting = s.waiting := rfl
@[simp] theorem State.setFlag_trace (b : Byte) : (s.setFlag b).trace = s.trace := rfl
@[simp] theorem State.setFlag_inputs (b : Byte) : (s.setFlag b).inputs = s.inputs := rfl

/-! ### After writing I: `State.setIndex` -/

@[simp] theorem State.setIndex_v (w : Word) : (s.setIndex w).v = s.v := rfl
@[simp] theorem State.setIndex_index (w : Word) : (s.setIndex w).index = w := rfl
@[simp] theorem State.setIndex_pc (w : Word) : (s.setIndex w).pc = s.pc := rfl
@[simp] theorem State.setIndex_sp (w : Word) : (s.setIndex w).sp = s.sp := rfl
@[simp] theorem State.setIndex_stack (w : Word) : (s.setIndex w).stack = s.stack := rfl
@[simp] theorem State.setIndex_display (w : Word) : (s.setIndex w).display = s.display := rfl
@[simp] theorem State.setIndex_status (w : Word) : (s.setIndex w).status = s.status := rfl
@[simp] theorem State.setIndex_lastOp (w : Word) : (s.setIndex w).lastOp = s.lastOp := rfl
@[simp] theorem State.setIndex_lastOpValid (w : Word) : (s.setIndex w).lastOpValid = s.lastOpValid := rfl
@[simp] theorem State.setIndex_mem (w : Word) : (s.setIndex w).mem = s.mem := rfl
@[simp] theorem State.setIndex_waiting (w : Word) : (s.setIndex w).waiting = s.waiting := rfl
@[simp] theorem State.setIndex_trace (w : Word) : (s.setIndex w).trace = s.trace := rfl
@[simp] theorem State.setIndex_inputs (w : Word) : (s.setIndex w).inputs = s.inputs := rfl

/-! ### After writing pc: `State.setPc` -/

@[simp] theorem State.setPc_v (w : Word) : (s.setPc w).v = s.v := rfl
@[simp] theorem State.setPc_index (w : Word) : (s.setPc w).index = s.index := rfl
@[simp] theorem State.setPc_pc (w : Word) : (s.setPc w).pc = w := rfl
@[simp] theorem State.setPc_sp (w : Word) : (s.setPc w).sp = s.sp := rfl
@[simp] theorem State.setPc_stack (w : Word) : (s.setPc w).stack = s.stack := rfl
@[simp] theorem State.setPc_display (w : Word) : (s.setPc w).display = s.display := rfl
@[simp] theorem State.setPc_status (w : Word) : (s.setPc w).status = s.status := rfl
@[simp] theorem State.setPc_lastOp (w : Word) : (s.setPc w).lastOp = s.lastOp := rfl
@[simp] theorem State.setPc_lastOpValid (w : Word) : (s.setPc w).lastOpValid = s.lastOpValid := rfl
@[simp] theorem State.setPc_mem (w : Word) : (s.setPc w).mem = s.mem := rfl
@[simp] theorem State.setPc_waiting (w : Word) : (s.setPc w).waiting = s.waiting := rfl
@[simp] theorem State.setPc_trace (w : Word) : (s.setPc w).trace = s.trace := rfl
@[simp] theorem State.setPc_inputs (w : Word) : (s.setPc w).inputs = s.inputs := rfl

/-! ### After a skip: `State.skip` -/

@[simp] theorem State.skip_v : s.skip.v = s.v := rfl
@[simp] theorem State.skip_index : s.skip.index = s.index := rfl
@[simp] theorem State.skip_pc : s.skip.pc = s.pc + 2 := rfl
@[simp] theorem State.skip_sp : s.skip.sp = s.sp := rfl
@[simp] theorem State.skip_stack : s.skip.stack = s.stack := rfl
@[simp] theorem State.skip_display : s.skip.display = s.display := rfl
@[simp] theorem State.skip_status : s.skip.status = s.status := rfl
@[simp] theorem State.skip_lastOp : s.skip.lastOp = s.lastOp := rfl
@[simp] theorem State.skip_lastOpValid : s.skip.lastOpValid = s.lastOpValid := rfl
@[simp] theorem State.skip_mem : s.skip.mem = s.mem := rfl
@[simp] theorem State.skip_waiting : s.skip.waiting = s.waiting := rfl
@[simp] theorem State.skip_trace : s.skip.trace = s.trace := rfl
@[simp] theorem State.skip_inputs : s.skip.inputs = s.inputs := rfl

/-! ### After taking an error (R232, R233): `State.raise` -/

@[simp] theorem State.raise_v (k : ErrorKind) : (s.raise k).v = s.v := rfl
@[simp] theorem State.raise_index (k : ErrorKind) : (s.raise k).index = s.index := rfl
@[simp] theorem State.raise_pc (k : ErrorKind) : (s.raise k).pc = s.pc - 2 := rfl
@[simp] theorem State.raise_sp (k : ErrorKind) : (s.raise k).sp = s.sp := rfl
@[simp] theorem State.raise_stack (k : ErrorKind) : (s.raise k).stack = s.stack := rfl
@[simp] theorem State.raise_display (k : ErrorKind) : (s.raise k).display = s.display := rfl
@[simp] theorem State.raise_status (k : ErrorKind) : (s.raise k).status = .halted k := rfl
@[simp] theorem State.raise_lastOp (k : ErrorKind) : (s.raise k).lastOp = s.lastOp := rfl
@[simp] theorem State.raise_lastOpValid (k : ErrorKind) : (s.raise k).lastOpValid = s.lastOpValid := rfl
@[simp] theorem State.raise_mem (k : ErrorKind) : (s.raise k).mem = s.mem := rfl
@[simp] theorem State.raise_waiting (k : ErrorKind) : (s.raise k).waiting = s.waiting := rfl
@[simp] theorem State.raise_trace (k : ErrorKind) : (s.raise k).trace = s.trace := rfl
@[simp] theorem State.raise_inputs (k : ErrorKind) : (s.raise k).inputs = s.inputs := rfl

/-! ### After a failed fetch check (R74): `State.fetchError` -/

@[simp] theorem State.fetchError_v (k : ErrorKind) : (s.fetchError k).v = s.v := rfl
@[simp] theorem State.fetchError_index (k : ErrorKind) : (s.fetchError k).index = s.index := rfl
@[simp] theorem State.fetchError_pc (k : ErrorKind) : (s.fetchError k).pc = s.pc := rfl
@[simp] theorem State.fetchError_sp (k : ErrorKind) : (s.fetchError k).sp = s.sp := rfl
@[simp] theorem State.fetchError_stack (k : ErrorKind) : (s.fetchError k).stack = s.stack := rfl
@[simp] theorem State.fetchError_display (k : ErrorKind) : (s.fetchError k).display = s.display := rfl
@[simp] theorem State.fetchError_status (k : ErrorKind) : (s.fetchError k).status = .halted k := rfl
@[simp] theorem State.fetchError_lastOp (k : ErrorKind) : (s.fetchError k).lastOp = s.lastOp := rfl
@[simp] theorem State.fetchError_lastOpValid (k : ErrorKind) : (s.fetchError k).lastOpValid = false := rfl
@[simp] theorem State.fetchError_mem (k : ErrorKind) : (s.fetchError k).mem = s.mem := rfl
@[simp] theorem State.fetchError_waiting (k : ErrorKind) : (s.fetchError k).waiting = s.waiting := rfl
@[simp] theorem State.fetchError_trace (k : ErrorKind) : (s.fetchError k).trace = s.trace := rfl
@[simp] theorem State.fetchError_inputs (k : ErrorKind) : (s.fetchError k).inputs = s.inputs := rfl

/-! ### After fetch and advance (R75): `State.afterFetch` -/

@[simp] theorem State.afterFetch_v (op : Word) : (s.afterFetch op).v = s.v := rfl
@[simp] theorem State.afterFetch_index (op : Word) : (s.afterFetch op).index = s.index := rfl
@[simp] theorem State.afterFetch_pc (op : Word) : (s.afterFetch op).pc = s.pc + 2 := rfl
@[simp] theorem State.afterFetch_sp (op : Word) : (s.afterFetch op).sp = s.sp := rfl
@[simp] theorem State.afterFetch_stack (op : Word) : (s.afterFetch op).stack = s.stack := rfl
@[simp] theorem State.afterFetch_display (op : Word) : (s.afterFetch op).display = s.display := rfl
@[simp] theorem State.afterFetch_status (op : Word) : (s.afterFetch op).status = s.status := rfl
@[simp] theorem State.afterFetch_lastOp (op : Word) : (s.afterFetch op).lastOp = op := rfl
@[simp] theorem State.afterFetch_lastOpValid (op : Word) : (s.afterFetch op).lastOpValid = true := rfl
@[simp] theorem State.afterFetch_mem (op : Word) : (s.afterFetch op).mem = s.mem := rfl
@[simp] theorem State.afterFetch_waiting (op : Word) : (s.afterFetch op).waiting = false := rfl
@[simp] theorem State.afterFetch_trace (op : Word) : (s.afterFetch op).trace = s.trace := rfl
@[simp] theorem State.afterFetch_inputs (op : Word) : (s.afterFetch op).inputs = s.inputs := rfl

/-! ### After recording a trace entry: `State.record` -/

@[simp] theorem State.record_v (e : TraceEntry) : (s.record e).v = s.v := rfl
@[simp] theorem State.record_index (e : TraceEntry) : (s.record e).index = s.index := rfl
@[simp] theorem State.record_pc (e : TraceEntry) : (s.record e).pc = s.pc := rfl
@[simp] theorem State.record_sp (e : TraceEntry) : (s.record e).sp = s.sp := rfl
@[simp] theorem State.record_stack (e : TraceEntry) : (s.record e).stack = s.stack := rfl
@[simp] theorem State.record_display (e : TraceEntry) : (s.record e).display = s.display := rfl
@[simp] theorem State.record_status (e : TraceEntry) : (s.record e).status = s.status := rfl
@[simp] theorem State.record_lastOp (e : TraceEntry) : (s.record e).lastOp = s.lastOp := rfl
@[simp] theorem State.record_lastOpValid (e : TraceEntry) : (s.record e).lastOpValid = s.lastOpValid := rfl
@[simp] theorem State.record_mem (e : TraceEntry) : (s.record e).mem = s.mem := rfl
@[simp] theorem State.record_waiting (e : TraceEntry) : (s.record e).waiting = s.waiting := rfl
@[simp] theorem State.record_trace (e : TraceEntry) : (s.record e).trace = s.trace ++ [e] := rfl
@[simp] theorem State.record_inputs (e : TraceEntry) : (s.record e).inputs = s.inputs := rfl

/-! ### After a host operation: `State.emit` -/

@[simp] theorem State.emit_v (e : HostEvent) : (s.emit e).v = s.v := rfl
@[simp] theorem State.emit_index (e : HostEvent) : (s.emit e).index = s.index := rfl
@[simp] theorem State.emit_pc (e : HostEvent) : (s.emit e).pc = s.pc := rfl
@[simp] theorem State.emit_sp (e : HostEvent) : (s.emit e).sp = s.sp := rfl
@[simp] theorem State.emit_stack (e : HostEvent) : (s.emit e).stack = s.stack := rfl
@[simp] theorem State.emit_display (e : HostEvent) : (s.emit e).display = s.display := rfl
@[simp] theorem State.emit_status (e : HostEvent) : (s.emit e).status = s.status := rfl
@[simp] theorem State.emit_lastOp (e : HostEvent) : (s.emit e).lastOp = s.lastOp := rfl
@[simp] theorem State.emit_lastOpValid (e : HostEvent) : (s.emit e).lastOpValid = s.lastOpValid := rfl
@[simp] theorem State.emit_mem (e : HostEvent) : (s.emit e).mem = s.mem := rfl
@[simp] theorem State.emit_waiting (e : HostEvent) : (s.emit e).waiting = s.waiting := rfl
@[simp] theorem State.emit_trace (e : HostEvent) : (s.emit e).trace = s.trace ++ [.host e] := rfl
@[simp] theorem State.emit_inputs (e : HostEvent) : (s.emit e).inputs = s.inputs := rfl

/-! ### After recording the step result: `State.recordResult` -/

@[simp] theorem State.recordResult_v : s.recordResult.v = s.v := rfl
@[simp] theorem State.recordResult_index : s.recordResult.index = s.index := rfl
@[simp] theorem State.recordResult_pc : s.recordResult.pc = s.pc := rfl
@[simp] theorem State.recordResult_sp : s.recordResult.sp = s.sp := rfl
@[simp] theorem State.recordResult_stack : s.recordResult.stack = s.stack := rfl
@[simp] theorem State.recordResult_display : s.recordResult.display = s.display := rfl
@[simp] theorem State.recordResult_status : s.recordResult.status = s.status := rfl
@[simp] theorem State.recordResult_lastOp : s.recordResult.lastOp = s.lastOp := rfl
@[simp] theorem State.recordResult_lastOpValid : s.recordResult.lastOpValid = s.lastOpValid := rfl
@[simp] theorem State.recordResult_mem : s.recordResult.mem = s.mem := rfl
@[simp] theorem State.recordResult_waiting : s.recordResult.waiting = s.waiting := rfl
@[simp] theorem State.recordResult_trace : s.recordResult.trace = s.trace ++ [.result s.status.stepResult] := rfl
@[simp] theorem State.recordResult_inputs : s.recordResult.inputs = s.inputs := rfl

/-! ### After taking a random byte: `State.takeRandom` -/

@[simp] theorem State.takeRandom_v : s.takeRandom.v = s.v := rfl
@[simp] theorem State.takeRandom_index : s.takeRandom.index = s.index := rfl
@[simp] theorem State.takeRandom_pc : s.takeRandom.pc = s.pc := rfl
@[simp] theorem State.takeRandom_sp : s.takeRandom.sp = s.sp := rfl
@[simp] theorem State.takeRandom_stack : s.takeRandom.stack = s.stack := rfl
@[simp] theorem State.takeRandom_display : s.takeRandom.display = s.display := rfl
@[simp] theorem State.takeRandom_status : s.takeRandom.status = s.status := rfl
@[simp] theorem State.takeRandom_lastOp : s.takeRandom.lastOp = s.lastOp := rfl
@[simp] theorem State.takeRandom_lastOpValid : s.takeRandom.lastOpValid = s.lastOpValid := rfl
@[simp] theorem State.takeRandom_mem : s.takeRandom.mem = s.mem := rfl
@[simp] theorem State.takeRandom_waiting : s.takeRandom.waiting = s.waiting := rfl
@[simp] theorem State.takeRandom_trace : s.takeRandom.trace = s.trace := rfl
@[simp] theorem State.takeRandom_inputs : s.takeRandom.inputs = { s.inputs with random := s.inputs.random.tail, draws := s.inputs.draws + 1 } := rfl

/-! ### After get_delay_timer: `State.callGetDelay` -/

@[simp] theorem State.callGetDelay_v : s.callGetDelay.v = s.v := rfl
@[simp] theorem State.callGetDelay_index : s.callGetDelay.index = s.index := rfl
@[simp] theorem State.callGetDelay_pc : s.callGetDelay.pc = s.pc := rfl
@[simp] theorem State.callGetDelay_sp : s.callGetDelay.sp = s.sp := rfl
@[simp] theorem State.callGetDelay_stack : s.callGetDelay.stack = s.stack := rfl
@[simp] theorem State.callGetDelay_display : s.callGetDelay.display = s.display := rfl
@[simp] theorem State.callGetDelay_status : s.callGetDelay.status = s.status := rfl
@[simp] theorem State.callGetDelay_lastOp : s.callGetDelay.lastOp = s.lastOp := rfl
@[simp] theorem State.callGetDelay_lastOpValid : s.callGetDelay.lastOpValid = s.lastOpValid := rfl
@[simp] theorem State.callGetDelay_mem : s.callGetDelay.mem = s.mem := rfl
@[simp] theorem State.callGetDelay_waiting : s.callGetDelay.waiting = s.waiting := rfl
@[simp] theorem State.callGetDelay_trace : s.callGetDelay.trace = s.trace ++ [.host (.getDelayTimer s.delayAnswer)] := rfl
@[simp] theorem State.callGetDelay_inputs : s.callGetDelay.inputs = { s.inputs with delay := s.inputs.delay.tail, draws := s.inputs.draws + 1 } := rfl

/-! ### After check_key: `State.callCheckKey` -/

@[simp] theorem State.callCheckKey_v (k : Key) : (s.callCheckKey k).v = s.v := rfl
@[simp] theorem State.callCheckKey_index (k : Key) : (s.callCheckKey k).index = s.index := rfl
@[simp] theorem State.callCheckKey_pc (k : Key) : (s.callCheckKey k).pc = s.pc := rfl
@[simp] theorem State.callCheckKey_sp (k : Key) : (s.callCheckKey k).sp = s.sp := rfl
@[simp] theorem State.callCheckKey_stack (k : Key) : (s.callCheckKey k).stack = s.stack := rfl
@[simp] theorem State.callCheckKey_display (k : Key) : (s.callCheckKey k).display = s.display := rfl
@[simp] theorem State.callCheckKey_status (k : Key) : (s.callCheckKey k).status = s.status := rfl
@[simp] theorem State.callCheckKey_lastOp (k : Key) : (s.callCheckKey k).lastOp = s.lastOp := rfl
@[simp] theorem State.callCheckKey_lastOpValid (k : Key) : (s.callCheckKey k).lastOpValid = s.lastOpValid := rfl
@[simp] theorem State.callCheckKey_mem (k : Key) : (s.callCheckKey k).mem = s.mem := rfl
@[simp] theorem State.callCheckKey_waiting (k : Key) : (s.callCheckKey k).waiting = s.waiting := rfl
@[simp] theorem State.callCheckKey_trace (k : Key) : (s.callCheckKey k).trace = s.trace ++ [.host (.checkKey k (s.keyAnswer k))] := rfl
@[simp] theorem State.callCheckKey_inputs (k : Key) : (s.callCheckKey k).inputs = { s.inputs with keyDown := s.inputs.keyDown.tail, draws := s.inputs.draws + 1 } := rfl

/-! ### After an answered await_key: `State.answerAwaitKey` -/

@[simp] theorem State.answerAwaitKey_v (k : Key) : (s.answerAwaitKey k).v = s.v := rfl
@[simp] theorem State.answerAwaitKey_index (k : Key) : (s.answerAwaitKey k).index = s.index := rfl
@[simp] theorem State.answerAwaitKey_pc (k : Key) : (s.answerAwaitKey k).pc = s.pc := rfl
@[simp] theorem State.answerAwaitKey_sp (k : Key) : (s.answerAwaitKey k).sp = s.sp := rfl
@[simp] theorem State.answerAwaitKey_stack (k : Key) : (s.answerAwaitKey k).stack = s.stack := rfl
@[simp] theorem State.answerAwaitKey_display (k : Key) : (s.answerAwaitKey k).display = s.display := rfl
@[simp] theorem State.answerAwaitKey_status (k : Key) : (s.answerAwaitKey k).status = s.status := rfl
@[simp] theorem State.answerAwaitKey_lastOp (k : Key) : (s.answerAwaitKey k).lastOp = s.lastOp := rfl
@[simp] theorem State.answerAwaitKey_lastOpValid (k : Key) : (s.answerAwaitKey k).lastOpValid = s.lastOpValid := rfl
@[simp] theorem State.answerAwaitKey_mem (k : Key) : (s.answerAwaitKey k).mem = s.mem := rfl
@[simp] theorem State.answerAwaitKey_waiting (k : Key) : (s.answerAwaitKey k).waiting = s.waiting := rfl
@[simp] theorem State.answerAwaitKey_trace (k : Key) : (s.answerAwaitKey k).trace = s.trace ++ [.host (.awaitKey k)] := rfl
@[simp] theorem State.answerAwaitKey_inputs (k : Key) : (s.answerAwaitKey k).inputs = { s.inputs with awaited := s.inputs.awaited.tail, draws := s.inputs.draws + 1 } := rfl

/-! ### After an unanswered await_key: `State.suspend` -/

@[simp] theorem State.suspend_v : s.suspend.v = s.v := rfl
@[simp] theorem State.suspend_index : s.suspend.index = s.index := rfl
@[simp] theorem State.suspend_pc : s.suspend.pc = s.pc - 2 := rfl
@[simp] theorem State.suspend_sp : s.suspend.sp = s.sp := rfl
@[simp] theorem State.suspend_stack : s.suspend.stack = s.stack := rfl
@[simp] theorem State.suspend_display : s.suspend.display = s.display := rfl
@[simp] theorem State.suspend_status : s.suspend.status = s.status := rfl
@[simp] theorem State.suspend_lastOp : s.suspend.lastOp = s.lastOp := rfl
@[simp] theorem State.suspend_lastOpValid : s.suspend.lastOpValid = s.lastOpValid := rfl
@[simp] theorem State.suspend_mem : s.suspend.mem = s.mem := rfl
@[simp] theorem State.suspend_waiting : s.suspend.waiting = true := rfl
@[simp] theorem State.suspend_trace : s.suspend.trace = s.trace := rfl
@[simp] theorem State.suspend_inputs : s.suspend.inputs = s.inputs := rfl

/-! ### After writing a pixel: `State.setPixel` -/

@[simp] theorem State.setPixel_v (x : Fin 64) (y : Fin 32) (b : Bool) : (s.setPixel x y b).v = s.v := rfl
@[simp] theorem State.setPixel_index (x : Fin 64) (y : Fin 32) (b : Bool) : (s.setPixel x y b).index = s.index := rfl
@[simp] theorem State.setPixel_pc (x : Fin 64) (y : Fin 32) (b : Bool) : (s.setPixel x y b).pc = s.pc := rfl
@[simp] theorem State.setPixel_sp (x : Fin 64) (y : Fin 32) (b : Bool) : (s.setPixel x y b).sp = s.sp := rfl
@[simp] theorem State.setPixel_stack (x : Fin 64) (y : Fin 32) (b : Bool) : (s.setPixel x y b).stack = s.stack := rfl
@[simp] theorem State.setPixel_display (x : Fin 64) (y : Fin 32) (b : Bool) : (s.setPixel x y b).display = s.display.set y.val (s.display[y].set x.val b x.isLt) y.isLt := rfl
@[simp] theorem State.setPixel_status (x : Fin 64) (y : Fin 32) (b : Bool) : (s.setPixel x y b).status = s.status := rfl
@[simp] theorem State.setPixel_lastOp (x : Fin 64) (y : Fin 32) (b : Bool) : (s.setPixel x y b).lastOp = s.lastOp := rfl
@[simp] theorem State.setPixel_lastOpValid (x : Fin 64) (y : Fin 32) (b : Bool) : (s.setPixel x y b).lastOpValid = s.lastOpValid := rfl
@[simp] theorem State.setPixel_mem (x : Fin 64) (y : Fin 32) (b : Bool) : (s.setPixel x y b).mem = s.mem := rfl
@[simp] theorem State.setPixel_waiting (x : Fin 64) (y : Fin 32) (b : Bool) : (s.setPixel x y b).waiting = s.waiting := rfl
@[simp] theorem State.setPixel_trace (x : Fin 64) (y : Fin 32) (b : Bool) : (s.setPixel x y b).trace = s.trace := rfl
@[simp] theorem State.setPixel_inputs (x : Fin 64) (y : Fin 32) (b : Bool) : (s.setPixel x y b).inputs = s.inputs := rfl

/-! ### After clearing the display: `State.clearDisplay` -/

@[simp] theorem State.clearDisplay_v : s.clearDisplay.v = s.v := rfl
@[simp] theorem State.clearDisplay_index : s.clearDisplay.index = s.index := rfl
@[simp] theorem State.clearDisplay_pc : s.clearDisplay.pc = s.pc := rfl
@[simp] theorem State.clearDisplay_sp : s.clearDisplay.sp = s.sp := rfl
@[simp] theorem State.clearDisplay_stack : s.clearDisplay.stack = s.stack := rfl
@[simp] theorem State.clearDisplay_display : s.clearDisplay.display = Vector.replicate 32 (Vector.replicate 64 false) := rfl
@[simp] theorem State.clearDisplay_status : s.clearDisplay.status = s.status := rfl
@[simp] theorem State.clearDisplay_lastOp : s.clearDisplay.lastOp = s.lastOp := rfl
@[simp] theorem State.clearDisplay_lastOpValid : s.clearDisplay.lastOpValid = s.lastOpValid := rfl
@[simp] theorem State.clearDisplay_mem : s.clearDisplay.mem = s.mem := rfl
@[simp] theorem State.clearDisplay_waiting : s.clearDisplay.waiting = s.waiting := rfl
@[simp] theorem State.clearDisplay_trace : s.clearDisplay.trace = s.trace := rfl
@[simp] theorem State.clearDisplay_inputs : s.clearDisplay.inputs = s.inputs := rfl

/-! ### Registers and pixels after an update -/

/-- Reading a register after writing one. -/
@[simp] theorem State.getV_setV (r q : Reg) (b : Byte) : (s.setV r b).getV q = if r = q then b else s.getV q := by
  simp [State.getV, Vector.getElem_set, Fin.ext_iff]

/-- Reading a register after writing the flag. -/
@[simp] theorem State.getV_setFlag (q : Reg) (b : Byte) :
    (s.setFlag b).getV q = if flagReg = q then b else s.getV q := State.getV_setV s flagReg q b

/-- Reading a pixel after writing one. -/
@[simp] theorem State.pixel_setPixel (x px : Fin 64) (y py : Fin 32) (b : Bool) :
    (s.setPixel x y b).pixel px py = if x = px ∧ y = py then b else s.pixel px py := by
  by_cases hy : y = py
  · subst hy
    simp [State.pixel, Vector.getElem_set, Fin.ext_iff]
  · have hv : y.val ≠ py.val := fun e => hy (Fin.ext e)
    simp [State.pixel, hy, hv]

/-- Every pixel is 0 after a clear. -/
@[simp] theorem State.pixel_clearDisplay (x : Fin 64) (y : Fin 32) : s.clearDisplay.pixel x y = false := by
  simp [State.pixel]

@[simp] theorem State.pixel_setV (px : Fin 64) (py : Fin 32) (r : Reg) (b : Byte) : (s.setV r b).pixel px py = s.pixel px py := rfl
@[simp] theorem State.pixel_setFlag (px : Fin 64) (py : Fin 32) (b : Byte) : (s.setFlag b).pixel px py = s.pixel px py := rfl
@[simp] theorem State.getV_setIndex (q : Reg) (w : Word) : (s.setIndex w).getV q = s.getV q := rfl
@[simp] theorem State.pixel_setIndex (px : Fin 64) (py : Fin 32) (w : Word) : (s.setIndex w).pixel px py = s.pixel px py := rfl
@[simp] theorem State.getV_setPc (q : Reg) (w : Word) : (s.setPc w).getV q = s.getV q := rfl
@[simp] theorem State.pixel_setPc (px : Fin 64) (py : Fin 32) (w : Word) : (s.setPc w).pixel px py = s.pixel px py := rfl
@[simp] theorem State.getV_skip (q : Reg) : s.skip.getV q = s.getV q := rfl
@[simp] theorem State.pixel_skip (px : Fin 64) (py : Fin 32) : s.skip.pixel px py = s.pixel px py := rfl
@[simp] theorem State.getV_raise (q : Reg) (k : ErrorKind) : (s.raise k).getV q = s.getV q := rfl
@[simp] theorem State.pixel_raise (px : Fin 64) (py : Fin 32) (k : ErrorKind) : (s.raise k).pixel px py = s.pixel px py := rfl
@[simp] theorem State.getV_fetchError (q : Reg) (k : ErrorKind) : (s.fetchError k).getV q = s.getV q := rfl
@[simp] theorem State.pixel_fetchError (px : Fin 64) (py : Fin 32) (k : ErrorKind) : (s.fetchError k).pixel px py = s.pixel px py := rfl
@[simp] theorem State.getV_afterFetch (q : Reg) (op : Word) : (s.afterFetch op).getV q = s.getV q := rfl
@[simp] theorem State.pixel_afterFetch (px : Fin 64) (py : Fin 32) (op : Word) : (s.afterFetch op).pixel px py = s.pixel px py := rfl
@[simp] theorem State.getV_record (q : Reg) (e : TraceEntry) : (s.record e).getV q = s.getV q := rfl
@[simp] theorem State.pixel_record (px : Fin 64) (py : Fin 32) (e : TraceEntry) : (s.record e).pixel px py = s.pixel px py := rfl
@[simp] theorem State.getV_emit (q : Reg) (e : HostEvent) : (s.emit e).getV q = s.getV q := rfl
@[simp] theorem State.pixel_emit (px : Fin 64) (py : Fin 32) (e : HostEvent) : (s.emit e).pixel px py = s.pixel px py := rfl
@[simp] theorem State.getV_recordResult (q : Reg) : s.recordResult.getV q = s.getV q := rfl
@[simp] theorem State.pixel_recordResult (px : Fin 64) (py : Fin 32) : s.recordResult.pixel px py = s.pixel px py := rfl
@[simp] theorem State.getV_takeRandom (q : Reg) : s.takeRandom.getV q = s.getV q := rfl
@[simp] theorem State.pixel_takeRandom (px : Fin 64) (py : Fin 32) : s.takeRandom.pixel px py = s.pixel px py := rfl
@[simp] theorem State.getV_callGetDelay (q : Reg) : s.callGetDelay.getV q = s.getV q := rfl
@[simp] theorem State.pixel_callGetDelay (px : Fin 64) (py : Fin 32) : s.callGetDelay.pixel px py = s.pixel px py := rfl
@[simp] theorem State.getV_callCheckKey (q : Reg) (k : Key) : (s.callCheckKey k).getV q = s.getV q := rfl
@[simp] theorem State.pixel_callCheckKey (px : Fin 64) (py : Fin 32) (k : Key) : (s.callCheckKey k).pixel px py = s.pixel px py := rfl
@[simp] theorem State.getV_answerAwaitKey (q : Reg) (k : Key) : (s.answerAwaitKey k).getV q = s.getV q := rfl
@[simp] theorem State.pixel_answerAwaitKey (px : Fin 64) (py : Fin 32) (k : Key) : (s.answerAwaitKey k).pixel px py = s.pixel px py := rfl
@[simp] theorem State.getV_suspend (q : Reg) : s.suspend.getV q = s.getV q := rfl
@[simp] theorem State.pixel_suspend (px : Fin 64) (py : Fin 32) : s.suspend.pixel px py = s.pixel px py := rfl
@[simp] theorem State.getV_setPixel (q : Reg) (x : Fin 64) (y : Fin 32) (b : Bool) : (s.setPixel x y b).getV q = s.getV q := rfl
@[simp] theorem State.getV_clearDisplay (q : Reg) : s.clearDisplay.getV q = s.getV q := rfl

/-- A conditional skip moves pc only. -/
theorem State.skipIf_eq (c : Bool) : s.skipIf c = s.setPc (if c then s.pc + 2 else s.pc) := by
  cases c <;> rfl

/-- fetch_pc inside a step. -/
@[simp] theorem State.fetchPc_afterFetch (op : Word) : (s.afterFetch op).fetchPc = s.pc := by
  simp [State.fetchPc]

end Sys2Proof.Machine
end

