-- ==== Sys2Proof/Laws/Ops.lean ====
section
/-! SUPPORT. One lemma per shared operation that says once what it can do: memory accesses, the stack, bulk register
writes, operand forms, drawing, fetching. -/

namespace Sys2Proof.Machine

variable (s : State)

/-! ### Memory accesses -/

/-- Reading bytes at existing addresses never faults and gives them in order. -/
theorem State.readBytes_eq (a n : Nat) (h : a + n ≤ Config.memSize) :
    s.readBytes a n = .ok ((List.range n).map fun k => Memory.read s.mem (a + k)) := by
  induction n generalizing a with
  | zero => rfl
  | succ n ih =>
    have ha : a < Config.memSize := by omega
    simp [State.readBytes, State.readByte, ha, ih (a + 1) (by omega), List.range_succ_eq_map, Nat.add_assoc,
      Nat.add_comm 1, Function.comp_def]

/-- Storing bytes at existing addresses never faults and changes memory only. -/
theorem State.storeBytes_eq (a : Nat) (bs : List Byte) (h : a + bs.length ≤ Config.memSize) :
    State.storeBytes a bs s = .ok { s with mem := Memory.writeList s.mem a bs } := by
  induction bs generalizing s a with
  | nil => rfl
  | cons b bs ih =>
    simp only [List.length_cons] at h
    have ha : a < Config.memSize := by omega
    simp [State.storeBytes, State.writeByte, ha, ih _ (a + 1) (by omega), Memory.writeList]

/-- A fetch at a pc that passed the checks reads the two bytes at pc and pc + 1 and never faults (R74, R75). -/
theorem State.fetchOp_eq (h : s.pc.toNat < Config.fetchLimit) : s.fetchOp = .ok s.wordAtPc := by
  have h0 : s.pc.toNat < Config.memSize := by simp only [Config.fetchLimit, Config.memSize] at *; omega
  have h1 : s.pc.toNat + 1 < Config.memSize := by simp only [Config.fetchLimit, Config.memSize] at *; omega
  simp [State.fetchOp, State.readByte, h0, h1, State.wordAtPc]

/-- A window does not overflow exactly when it is empty or ends inside memory. -/
theorem State.windowOverflows_eq_false (n : Nat) :
    s.windowOverflows n = false ↔ n = 0 ∨ s.index.toNat + n ≤ Config.memSize := by
  simp only [State.windowOverflows, decide_eq_false_iff_not, Config.memSize]
  omega

/-- A window overflows exactly when it is not empty and passes 4095. -/
theorem State.windowOverflows_eq_true (n : Nat) :
    s.windowOverflows n = true ↔ 0 < n ∧ 4096 < s.index.toNat + n := by
  simp only [State.windowOverflows, decide_eq_true_eq]
  omega

/-! ### The stack -/

/-- A push writes slot sp and increments sp; it fails only on a full stack. -/
theorem State.push_cases (w : Word) :
    (s.sp.val = 16 ∧ s.push w = none) ∨
    ∃ (h : s.sp.val < 16), s.push w =
      some { s with stack := s.stack.set s.sp.val w h, sp := ⟨s.sp.val + 1, Nat.succ_lt_succ h⟩ } := by
  by_cases h : s.sp.val < 16
  · exact .inr ⟨h, by simp [State.push, h]⟩
  · exact .inl ⟨by have := s.sp.isLt; omega, by simp [State.push, h]⟩

/-- A pop decrements sp and reads slot sp; it fails only on an empty stack. -/
theorem State.popToPc_cases :
    (s.sp.val = 0 ∧ s.popToPc = none) ∨
    ∃ (k : Fin 16) (h : s.sp.val = k.val + 1), s.popToPc =
      some { s with sp := ⟨k.val, by have := s.sp.isLt; omega⟩, pc := s.stack[k] } := by
  by_cases h : 0 < s.sp.val
  · refine .inr ⟨⟨s.sp.val - 1, by have := s.sp.isLt; omega⟩, by simp; omega, ?_⟩
    simp [State.popToPc, h]
  · exact .inl ⟨by omega, by simp [State.popToPc, h]⟩

/-! ### Bulk register writes and reads -/

/-- Bulk register writes change registers only. -/
theorem State.setVs_eq (k : Nat) (bs : List Byte) : State.setVs k bs s = { s with v := (State.setVs k bs s).v } := by
  induction bs generalizing s k with
  | nil => rfl
  | cons b bs ih =>
    simp only [State.setVs]
    split
    · rw [ih]; rfl
    · exact ih _ _

/-- A register after bulk writes: its byte of the list, or its old value. -/
theorem State.getV_setVs (k : Nat) (bs : List Byte) (r : Reg) :
    (State.setVs k bs s).getV r = if h : k ≤ r.val ∧ r.val - k < bs.length then bs[r.val - k]'h.2 else s.getV r := by
  induction bs generalizing s k with
  | nil => simp [State.setVs]
  | cons b bs ih =>
    rw [State.setVs, ih]
    rcases Nat.lt_trichotomy r.val k with hlt | heq | hgt
    · have h1 : ¬ k + 1 ≤ r.val := by omega
      have h2 : ¬ k ≤ r.val := by omega
      simp only [h1, h2, false_and, dite_false]
      split
      · have : (⟨k, by assumption⟩ : Reg) ≠ r := fun e => by have := congrArg Fin.val e; simp at this; omega
        simp [this]
      · rfl
    · subst heq
      simp
    · obtain ⟨d, hd⟩ : ∃ d, r.val = k + 1 + d := ⟨r.val - k - 1, by omega⟩
      have hne : ∀ h : k < 16, (⟨k, h⟩ : Reg) ≠ r := fun h e => by have := congrArg Fin.val e; simp at this; omega
      have e1 : r.val - k = d + 1 := by omega
      have e2 : r.val - (k + 1) = d := by omega
      simp only [e1, e2]
      by_cases hl : d < bs.length
      · simp [hl, show k + 1 ≤ r.val by omega, show k ≤ r.val by omega]
      · simp only [hl, and_false, dite_false, List.length_cons, Nat.add_lt_add_iff_right]
        split <;> simp [hne]

/-- The number of registers stored by Fx55. -/
@[simp] theorem State.length_regsUpTo (x : Reg) : (s.regsUpTo x).length = x.val + 1 := by
  have := x.isLt
  simp [State.regsUpTo]

/-- The k-th register stored by Fx55 is V[k]. -/
theorem State.getElem_regsUpTo (x : Reg) (k : Nat) (h : k < (s.regsUpTo x).length) :
    (s.regsUpTo x)[k] = s.getV ⟨k, by have := x.isLt; simp at h; omega⟩ := by
  simp [State.regsUpTo, State.getV]

/-! ### Operand forms -/

/-- V[x] as a digit or key: it exists exactly when V[x] is at most 15. -/
theorem State.nibbleOf_cases (x : Reg) :
    (15 < (s.getV x).toNat ∧ s.nibbleOf x = none) ∨ ∃ k : Fin 16, (s.getV x).toNat = k.val ∧ s.nibbleOf x = some k := by
  by_cases h : (s.getV x).toNat < 16
  · exact .inr ⟨⟨_, h⟩, rfl, by simp [State.nibbleOf, h]⟩
  · exact .inl ⟨by omega, by simp [State.nibbleOf, h]⟩

@[simp] theorem toNat_zextAddr (nnn : Addr12) : (zextAddr nnn).toNat = nnn.toNat := by
  have := nnn.isLt
  simp [zextAddr]; omega

@[simp] theorem toNat_zextByte (b : Byte) : (zextByte b).toNat = b.toNat := by
  have := b.isLt
  simp [zextByte]; omega

@[simp] theorem toNat_glyphAddress (d : Fin 16) : (glyphAddress d).toNat = d.val * 5 := by
  have := d.isLt
  simp [glyphAddress, Config.glyphStride]; omega

@[simp] theorem toNat_keyByte (k : Key) : (keyByte k).toNat = k.val := by
  have := k.isLt
  simp [keyByte]; omega

/-- The target of Bnnn does not wrap (R25, R103). -/
theorem State.toNat_computedTarget (nnn : Addr12) : (s.computedTarget nnn).toNat = nnn.toNat + (s.getV 0).toNat := by
  have h1 := nnn.isLt
  have h2 := (s.getV 0).isLt
  simp only [State.computedTarget, BitVec.toNat_add, toNat_zextAddr, toNat_zextByte]
  omega

/-! ### Drawing -/

/-- What a draw may change: the display, the trace and V[F]. -/
structure DrawFrame (s t : State) : Prop where
  regs : ∀ r, r ≠ 15 → t.getV r = s.getV r
  rest : t = { s with v := t.v, display := t.display, trace := t.trace }

theorem DrawFrame.refl : DrawFrame s s := ⟨fun _ _ => rfl, rfl⟩

theorem DrawFrame.trans {s t u : State} (h1 : DrawFrame s t) (h2 : DrawFrame t u) : DrawFrame s u :=
  ⟨fun r hr => (h2.regs r hr).trans (h1.regs r hr), by rw [h2.rest, h1.rest]⟩

/-- Flipping a pixel: the pixel is inverted, V[F] becomes 1 if it was set, one plot event. -/
theorem State.flipPixel_eq (x : Fin 64) (y : Fin 32) :
    s.flipPixel x y =
      { s.setPixel x y (!s.pixel x y) with
        v := if s.pixel x y then (s.setFlag 1).v else s.v
        trace := s.trace ++ [.host (.plot x y (!s.pixel x y))] } := by
  unfold State.flipPixel
  cases s.pixel x y <;> rfl

theorem State.flipPixel_frame (x : Fin 64) (y : Fin 32) : DrawFrame s (s.flipPixel x y) := by
  rw [State.flipPixel_eq]
  refine ⟨fun r hr => ?_, rfl⟩
  have hne : ¬ flagReg = r := fun e => hr e.symm
  cases s.pixel x y
  · rfl
  · exact (State.getV_setFlag s r 1).trans (if_neg hne)

/-- A pixel after a flip. -/
theorem State.pixel_flipPixel (x px : Fin 64) (y py : Fin 32) :
    (s.flipPixel x y).pixel px py = if x = px ∧ y = py then !s.pixel x y else s.pixel px py := by
  rw [State.flipPixel_eq]
  exact State.pixel_setPixel s x px y py _

/-- V[F] after a flip. -/
theorem State.flag_flipPixel (x : Fin 64) (y : Fin 32) :
    (s.flipPixel x y).getV 15 = if s.pixel x y then 1 else s.getV 15 := by
  rw [State.flipPixel_eq]
  cases s.pixel x y
  · rfl
  · exact (State.getV_setFlag s 15 1).trans (if_pos rfl)

theorem State.trace_flipPixel (x : Fin 64) (y : Fin 32) :
    (s.flipPixel x y).trace = s.trace ++ [.host (.plot x y (!s.pixel x y))] := by
  rw [State.flipPixel_eq]

theorem State.drawBit_frame (x y : Nat) (bit : Bool) : DrawFrame s (s.drawBit x y bit) := by
  unfold State.drawBit
  split
  · exact State.flipPixel_frame s _ _
  · exact DrawFrame.refl s

theorem State.drawColumns_frame (x0 y : Nat) (row : Byte) (cs : List Nat) :
    DrawFrame s (State.drawColumns x0 y row cs s) := by
  induction cs generalizing s with
  | nil => exact DrawFrame.refl s
  | cons c cs ih => exact (State.drawBit_frame s _ _ _).trans (ih _)

theorem State.drawRows_frame (x0 y : Nat) (rows : List Byte) : DrawFrame s (State.drawRows x0 y rows s) := by
  induction rows generalizing s y with
  | nil => exact DrawFrame.refl s
  | cons row rows ih => exact (State.drawColumns_frame s _ _ _ _).trans (ih _ _)

end Sys2Proof.Machine
end

