-- ==== Sys2Proof/Laws/Draw.lean ====
section
/-! SUPPORT. A draw is a sequence of pixel flips at distinct positions: what the sequence is, and what such a sequence
does to a pixel, to V[F] and to the trace (43_display.md R191 to R194). -/

namespace Sys2Proof.Machine

/-- A position of the display. -/
abbrev Position := Fin 64 × Fin 32

/-- The position a sprite bit flips, if it is set and visible (R192). -/
def visiblePos (x y : Nat) (bit : Bool) : Option Position :=
  if h : x < 64 ∧ y < 32 ∧ bit = true then some (⟨x, h.1⟩, ⟨y, h.2.1⟩) else none

/-- The positions a sprite row flips, left to right. -/
def rowPositions (x0 y : Nat) (row : Byte) (cs : List Nat) : List Position :=
  cs.filterMap fun c => visiblePos (x0 + c) y (row.getLsbD (7 - c))

/-- The positions a sprite flips, top to bottom. -/
def spritePositions (x0 : Nat) : Nat → List Byte → List Position
  | _, [] => []
  | y, row :: rows => rowPositions x0 y row spriteColumns ++ spritePositions x0 (y + 1) rows

/-- Flip pixels in order. -/
def State.flipAll (s : State) (ps : List Position) : State := ps.foldl (fun t p => t.flipPixel p.1 p.2) s

variable (s : State)

theorem State.drawBit_eq_flipAll (x y : Nat) (bit : Bool) :
    s.drawBit x y bit = s.flipAll (visiblePos x y bit).toList := by
  unfold State.drawBit visiblePos
  split <;> rfl

theorem State.drawColumns_eq_flipAll (x0 y : Nat) (row : Byte) (cs : List Nat) :
    State.drawColumns x0 y row cs s = s.flipAll (rowPositions x0 y row cs) := by
  induction cs generalizing s with
  | nil => rfl
  | cons c cs ih =>
    rw [State.drawColumns, ih, State.drawBit_eq_flipAll]
    simp only [rowPositions, List.filterMap_cons]
    cases visiblePos (x0 + c) y (row.getLsbD (7 - c)) <;> rfl

/-- A draw is the flips of its positions in order. -/
theorem State.drawRows_eq_flipAll (x0 y : Nat) (rows : List Byte) :
    State.drawRows x0 y rows s = s.flipAll (spritePositions x0 y rows) := by
  induction rows generalizing s y with
  | nil => rfl
  | cons row rows ih =>
    rw [State.drawRows, ih, State.drawColumns_eq_flipAll]
    simp [State.flipAll, spritePositions, List.foldl_append]

/-- Flips at distinct positions invert exactly those pixels. -/
theorem State.pixel_flipAll (ps : List Position) (hn : ps.Nodup) (px : Fin 64) (py : Fin 32) :
    (s.flipAll ps).pixel px py = (s.pixel px py ^^ decide ((px, py) ∈ ps)) := by
  induction ps generalizing s with
  | nil => simp [State.flipAll]
  | cons p ps ih =>
    obtain ⟨hp, hn⟩ := List.nodup_cons.1 hn
    change ((s.flipPixel p.1 p.2).flipAll ps).pixel px py = _
    rw [ih _ hn, State.pixel_flipPixel]
    by_cases h : p.1 = px ∧ p.2 = py
    · have e : (px, py) = p := Prod.ext h.1.symm h.2.symm
      simp [e, hp, h]
    · have e : (px, py) ≠ p := fun e => h ⟨by rw [← e], by rw [← e]⟩
      simp [e, h]

/-- Flips at distinct positions set V[F] if one of the pixels was set, and leave it otherwise. -/
theorem State.flag_flipAll (ps : List Position) (hn : ps.Nodup) :
    (s.flipAll ps).getV 15 = if ∃ p ∈ ps, s.pixel p.1 p.2 = true then 1 else s.getV 15 := by
  induction ps generalizing s with
  | nil => simp [State.flipAll]
  | cons p ps ih =>
    obtain ⟨hp, hn⟩ := List.nodup_cons.1 hn
    change ((s.flipPixel p.1 p.2).flipAll ps).getV 15 = _
    have hsame : ∀ q ∈ ps, (s.flipPixel p.1 p.2).pixel q.1 q.2 = s.pixel q.1 q.2 := fun q hq => by
      rw [State.pixel_flipPixel, if_neg]
      exact fun e => hp (by rw [show p = q from Prod.ext e.1 e.2]; exact hq)
    have hex : (∃ q ∈ ps, (s.flipPixel p.1 p.2).pixel q.1 q.2 = true) ↔ ∃ q ∈ ps, s.pixel q.1 q.2 = true :=
      ⟨fun ⟨q, hq, h⟩ => ⟨q, hq, hsame q hq ▸ h⟩, fun ⟨q, hq, h⟩ => ⟨q, hq, (hsame q hq).trans h⟩⟩
    rw [ih _ hn, State.flag_flipPixel]
    simp only [hex, List.mem_cons, exists_eq_or_imp]
    by_cases h1 : s.pixel p.1 p.2 = true <;> by_cases h2 : ∃ q ∈ ps, s.pixel q.1 q.2 = true <;> simp [h1, h2]

/-- Flips at distinct positions plot each pixel's inverted value in order. -/
theorem State.trace_flipAll (ps : List Position) (hn : ps.Nodup) :
    (s.flipAll ps).trace = s.trace ++ ps.map fun p => .host (.plot p.1 p.2 (!s.pixel p.1 p.2)) := by
  induction ps generalizing s with
  | nil => simp [State.flipAll]
  | cons p ps ih =>
    obtain ⟨hp, hn⟩ := List.nodup_cons.1 hn
    change ((s.flipPixel p.1 p.2).flipAll ps).trace = _
    have hsame : ∀ q ∈ ps, (s.flipPixel p.1 p.2).pixel q.1 q.2 = s.pixel q.1 q.2 := fun q hq => by
      rw [State.pixel_flipPixel, if_neg]
      exact fun e => hp (by rw [show p = q from Prod.ext e.1 e.2]; exact hq)
    rw [ih _ hn, State.trace_flipPixel]
    simp only [List.map_cons, List.append_assoc, List.singleton_append]
    refine congrArg _ (congrArg _ (List.map_congr_left fun q hq => ?_))
    rw [hsame q hq]

/-! ### The positions of a sprite -/

theorem mem_visiblePos (x y : Nat) (bit : Bool) (px : Fin 64) (py : Fin 32) :
    visiblePos x y bit = some (px, py) ↔ px.val = x ∧ py.val = y ∧ bit = true := by
  unfold visiblePos
  constructor
  · intro h
    split at h
    · next hb => cases h; exact ⟨rfl, rfl, hb.2.2⟩
    · cases h
  · rintro ⟨hx, hy, hb⟩
    subst hx hy
    simp [hb]

theorem mem_rowPositions (x0 y : Nat) (row : Byte) (cs : List Nat) (px : Fin 64) (py : Fin 32) :
    (px, py) ∈ rowPositions x0 y row cs ↔
      py.val = y ∧ ∃ c ∈ cs, px.val = x0 + c ∧ row.getLsbD (7 - c) = true := by
  simp only [rowPositions, List.mem_filterMap, mem_visiblePos]
  exact ⟨fun ⟨c, hc, h1, h2, h3⟩ => ⟨h2, c, hc, h1, h3⟩, fun ⟨h2, c, hc, h1, h3⟩ => ⟨c, hc, h1, h2, h3⟩⟩

/-- The positions of a sprite: row r of it lies in display row y + r, column c in display column x0 + c. -/
theorem mem_spritePositions (x0 y : Nat) (rows : List Byte) (px : Fin 64) (py : Fin 32) :
    (px, py) ∈ spritePositions x0 y rows ↔
      ∃ (r : Nat) (h : r < rows.length) (c : Nat), c < 8 ∧ py.val = y + r ∧ px.val = x0 + c ∧
        rows[r].getLsbD (7 - c) = true := by
  have hc8 : ∀ c, c ∈ spriteColumns ↔ c < 8 := fun c => by simp [spriteColumns]; omega
  induction rows generalizing y with
  | nil => simp [spritePositions]
  | cons row rows ih =>
    simp only [spritePositions, List.mem_append, mem_rowPositions, ih, hc8]
    constructor
    · rintro (⟨hy, c, hc, hx, hb⟩ | ⟨r, h, c, hc, hy, hx, hb⟩)
      · exact ⟨0, by simp, c, hc, by omega, hx, hb⟩
      · exact ⟨r + 1, by simp; omega, c, hc, by omega, hx, by simpa using hb⟩
    · rintro ⟨r, h, c, hc, hy, hx, hb⟩
      cases r with
      | zero => exact .inl ⟨by omega, c, hc, hx, hb⟩
      | succ r => exact .inr ⟨r, by simpa using h, c, hc, by omega, hx, by simpa using hb⟩

theorem nodup_rowPositions (x0 y : Nat) (row : Byte) {cs : List Nat} (h : cs.Nodup) :
    (rowPositions x0 y row cs).Nodup := by
  refine List.Nodup.filterMap (fun a b p ha hb => ?_) h
  obtain ⟨px, py⟩ := p
  have h1 := ((mem_visiblePos _ _ _ _ _).1 ha).1
  have h2 := ((mem_visiblePos _ _ _ _ _).1 hb).1
  omega

/-- A sprite flips no pixel twice (R193). -/
theorem nodup_spritePositions (x0 y : Nat) (rows : List Byte) : (spritePositions x0 y rows).Nodup := by
  induction rows generalizing y with
  | nil => exact List.nodup_nil
  | cons row rows ih =>
    refine List.Nodup.append (nodup_rowPositions x0 y row (by decide)) (ih _) fun p hp hq => ?_
    obtain ⟨px, py⟩ := p
    obtain ⟨hy, -⟩ := (mem_rowPositions _ _ _ _ _ _).1 hp
    obtain ⟨r, -, c, -, hy', -, -⟩ := (mem_spritePositions _ _ _ _ _).1 hq
    omega

end Sys2Proof.Machine
end

