-- ==== Sys2Proof/Laws/Encoding.lean ====
section
/-! SUPPORT. Cutting a field out of a word built by a format gives the field back (30_encoding.md R71 to R73). -/

namespace Sys2Proof

variable (a d : BitVec 4) (x y : Reg) (nn : Byte) (nnn : Addr12)

theorem toNat_formatNNN : (formatNNN a nnn).toNat = a.toNat * 4096 + nnn.toNat := by
  have := nnn.isLt
  simp only [formatNNN, BitVec.toNat_append]
  rw [← Nat.shiftLeft_add_eq_or_of_lt this, Nat.shiftLeft_eq]

theorem toNat_formatXNN : (formatXNN a x nn).toNat = a.toNat * 4096 + x.val * 256 + nn.toNat := by
  have h1 := nn.isLt
  have h2 := x.isLt
  simp only [formatXNN, BitVec.toNat_append, BitVec.toNat_ofFin]
  rw [← Nat.shiftLeft_add_eq_or_of_lt h1, ← Nat.shiftLeft_add_eq_or_of_lt h2, Nat.shiftLeft_eq, Nat.shiftLeft_eq]
  omega

theorem toNat_formatXYN :
    (formatXYN a x y d).toNat = a.toNat * 4096 + x.val * 256 + y.val * 16 + d.toNat := by
  have h1 := d.isLt
  have h2 := x.isLt
  have h3 := y.isLt
  simp only [formatXYN, BitVec.toNat_append, BitVec.toNat_ofFin]
  rw [← Nat.shiftLeft_add_eq_or_of_lt h1, ← Nat.shiftLeft_add_eq_or_of_lt h3, ← Nat.shiftLeft_add_eq_or_of_lt h2,
    Nat.shiftLeft_eq, Nat.shiftLeft_eq, Nat.shiftLeft_eq]
  omega

variable (op : Word)

/-- The fields of a word as numbers. -/
theorem opGroup_eq : opGroup op = op.toNat / 4096 := by
  have := op.isLt
  simp only [opGroup, BitVec.extractLsb'_toNat, Nat.shiftRight_eq_div_pow]
  omega

theorem val_fieldX : (fieldX op).val = op.toNat / 256 % 16 := by
  simp only [fieldX, BitVec.val_toFin, BitVec.extractLsb'_toNat, Nat.shiftRight_eq_div_pow]

theorem val_fieldY : (fieldY op).val = op.toNat / 16 % 16 := by
  simp only [fieldY, BitVec.val_toFin, BitVec.extractLsb'_toNat, Nat.shiftRight_eq_div_pow]

theorem fieldN_eq : fieldN op = op.toNat % 16 := by
  simp only [fieldN, BitVec.extractLsb'_toNat, Nat.shiftRight_eq_div_pow]
  omega

theorem toNat_fieldNN : (fieldNN op).toNat = op.toNat % 256 := by
  simp only [fieldNN, BitVec.extractLsb'_toNat, Nat.shiftRight_eq_div_pow]
  omega

theorem toNat_fieldNNN : (fieldNNN op).toNat = op.toNat % 4096 := by
  simp only [fieldNNN, BitVec.extractLsb'_toNat, Nat.shiftRight_eq_div_pow]
  omega

@[simp] theorem opGroup_formatNNN : opGroup (formatNNN a nnn) = a.toNat := by
  have := nnn.isLt
  rw [opGroup_eq, toNat_formatNNN]; omega

@[simp] theorem fieldNNN_formatNNN : fieldNNN (formatNNN a nnn) = nnn := by
  have := nnn.isLt
  apply BitVec.eq_of_toNat_eq
  rw [toNat_fieldNNN, toNat_formatNNN]; omega

@[simp] theorem opGroup_formatXNN : opGroup (formatXNN a x nn) = a.toNat := by
  have := nn.isLt
  have := x.isLt
  rw [opGroup_eq, toNat_formatXNN]; omega

@[simp] theorem fieldX_formatXNN : fieldX (formatXNN a x nn) = x := by
  have := nn.isLt
  have := x.isLt
  apply Fin.ext
  rw [val_fieldX, toNat_formatXNN]; omega

@[simp] theorem fieldNN_formatXNN : fieldNN (formatXNN a x nn) = nn := by
  have := nn.isLt
  apply BitVec.eq_of_toNat_eq
  rw [toNat_fieldNN, toNat_formatXNN]; omega

@[simp] theorem opGroup_formatXYN : opGroup (formatXYN a x y d) = a.toNat := by
  have := d.isLt
  have := x.isLt
  have := y.isLt
  rw [opGroup_eq, toNat_formatXYN]; omega

@[simp] theorem fieldX_formatXYN : fieldX (formatXYN a x y d) = x := by
  have := d.isLt
  have := x.isLt
  have := y.isLt
  apply Fin.ext
  rw [val_fieldX, toNat_formatXYN]; omega

@[simp] theorem fieldY_formatXYN : fieldY (formatXYN a x y d) = y := by
  have := d.isLt
  have := y.isLt
  apply Fin.ext
  rw [val_fieldY, toNat_formatXYN]; omega

@[simp] theorem fieldN_formatXYN : fieldN (formatXYN a x y d) = d.toNat := by
  have := d.isLt
  rw [fieldN_eq, toNat_formatXYN]; omega

/-- The two bytes of a word, put together again (R52). -/
@[simp] theorem wordOfBytes_highByte_lowByte : wordOfBytes (highByte op) (lowByte op) = op := by
  have h := op.isLt
  have hl := (lowByte op).isLt
  apply BitVec.eq_of_toNat_eq
  simp only [wordOfBytes, BitVec.toNat_append]
  rw [← Nat.shiftLeft_add_eq_or_of_lt hl, Nat.shiftLeft_eq]
  simp only [highByte, lowByte, BitVec.extractLsb'_toNat, Nat.shiftRight_eq_div_pow]
  omega

/-- The word of two bytes as a number (R52). -/
theorem toNat_wordOfBytes (hi lo : Byte) : (wordOfBytes hi lo).toNat = hi.toNat * 256 + lo.toNat := by
  have := lo.isLt
  simp only [wordOfBytes, BitVec.toNat_append]
  rw [← Nat.shiftLeft_add_eq_or_of_lt this, Nat.shiftLeft_eq]

/-! ### The masks of the opcode map (R78) as numbers -/

theorem toNat_and_low (k : Nat) (hk : k ≤ 16) : (op &&& BitVec.ofNat 16 (2 ^ k - 1)).toNat = op.toNat % 2 ^ k := by
  have h2 : 2 ^ k ≤ 2 ^ 16 := Nat.pow_le_pow_right (by decide) hk
  have h1 : 0 < 2 ^ k := Nat.two_pow_pos k
  rw [BitVec.toNat_and, BitVec.toNat_ofNat, Nat.mod_eq_of_lt (by omega), Nat.and_two_pow_sub_one_eq_mod]

theorem toNat_and_maskF000 : (op &&& 0xF000#16).toNat = op.toNat / 4096 * 4096 := by
  have e : op &&& 0xF000#16 = (op >>> 12) <<< 12 := by
    ext i hi
    interval_cases i <;> simp
  have := op.isLt
  rw [e, BitVec.toNat_shiftLeft, BitVec.toNat_ushiftRight, Nat.shiftLeft_eq, Nat.shiftRight_eq_div_pow]
  omega

theorem toNat_and_maskF00F : (op &&& 0xF00F#16).toNat = op.toNat / 4096 * 4096 + op.toNat % 16 := by
  have e : op &&& 0xF00F#16 = (op &&& 0xF000#16) + (op &&& 0x000F#16) := by
    rw [BitVec.add_eq_or_of_and_eq_zero] <;> (ext i hi; interval_cases i <;> simp)
  have h2 : (op &&& 0x000F#16).toNat = op.toNat % 16 := toNat_and_low op 4 (by decide)
  have := op.isLt
  rw [e, BitVec.toNat_add, toNat_and_maskF000, h2]
  omega

theorem toNat_and_maskF0FF : (op &&& 0xF0FF#16).toNat = op.toNat / 4096 * 4096 + op.toNat % 256 := by
  have e : op &&& 0xF0FF#16 = (op &&& 0xF000#16) + (op &&& 0x00FF#16) := by
    rw [BitVec.add_eq_or_of_and_eq_zero] <;> (ext i hi; interval_cases i <;> simp)
  have h2 : (op &&& 0x00FF#16).toNat = op.toNat % 256 := toNat_and_low op 8 (by decide)
  have := op.isLt
  rw [e, BitVec.toNat_add, toNat_and_maskF000, h2]
  omega

end Sys2Proof
end

