-- ==== Sys2Proof/Laws/PerInstr.lean ====
section
/-! SUPPORT. Statements about every instruction as syntax, one lemma per constructor. RoundTrip: decoding the word of a
well-formed instruction gives it back (30_encoding.md R73, R78, R81). -/

namespace Sys2Proof.Laws.RoundTrip

/-- The decoder reads a well-formed instruction back from its word. -/
def Statement (i : Instr) : Prop := i.wellFormed = true → decode (encode i) = .ok i

theorem cls : Statement .cls := fun _ => by decide

theorem ret : Statement .ret := fun _ => by decide

theorem jp (nnn : Addr12) : Statement (.jp nnn) := fun _ => by simp [encode, decode]

theorem call (nnn : Addr12) : Statement (.call nnn) := fun _ => by simp [encode, decode]

theorem seImm (x : Reg) (nn : Byte) : Statement (.seImm x nn) := fun _ => by simp [encode, decode]

theorem sneImm (x : Reg) (nn : Byte) : Statement (.sneImm x nn) := fun _ => by simp [encode, decode]

theorem seReg (x : Reg) (y : Reg) : Statement (.seReg x y) := fun _ => by simp [encode, decode]

theorem ldImm (x : Reg) (nn : Byte) : Statement (.ldImm x nn) := fun _ => by simp [encode, decode]

theorem addImm (x : Reg) (nn : Byte) : Statement (.addImm x nn) := fun _ => by simp [encode, decode]

theorem ldReg (x : Reg) (y : Reg) : Statement (.ldReg x y) := fun _ => by simp [encode, decode, decodeGroup8]

theorem orReg (x : Reg) (y : Reg) : Statement (.orReg x y) := fun _ => by simp [encode, decode, decodeGroup8]

theorem andReg (x : Reg) (y : Reg) : Statement (.andReg x y) := fun _ => by simp [encode, decode, decodeGroup8]

theorem xorReg (x : Reg) (y : Reg) : Statement (.xorReg x y) := fun _ => by simp [encode, decode, decodeGroup8]

theorem addReg (x : Reg) (y : Reg) : Statement (.addReg x y) := fun _ => by simp [encode, decode, decodeGroup8]

theorem subReg (x : Reg) (y : Reg) : Statement (.subReg x y) := fun _ => by simp [encode, decode, decodeGroup8]

theorem shrReg (x : Reg) (y : Reg) : Statement (.shrReg x y) := fun _ => by simp [encode, decode, decodeGroup8]

theorem subnReg (x : Reg) (y : Reg) : Statement (.subnReg x y) := fun _ => by simp [encode, decode, decodeGroup8]

theorem shlReg (x : Reg) (y : Reg) : Statement (.shlReg x y) := fun _ => by simp [encode, decode, decodeGroup8]

theorem sneReg (x : Reg) (y : Reg) : Statement (.sneReg x y) := fun _ => by simp [encode, decode]

theorem ldI (nnn : Addr12) : Statement (.ldI nnn) := fun _ => by simp [encode, decode]

theorem jpV0 (nnn : Addr12) : Statement (.jpV0 nnn) := fun _ => by simp [encode, decode]

theorem rnd (x : Reg) (nn : Byte) : Statement (.rnd x nn) := fun _ => by simp [encode, decode]

theorem drw (x y : Reg) (n : Nat) : Statement (.drw x y n) := by
  intro h
  have hn : n < 16 := by simpa [Instr.wellFormed] using h
  simp [encode, decode, Nat.mod_eq_of_lt hn]

theorem skp (x : Reg) : Statement (.skp x) := fun _ => by simp [encode, decode, decodeGroupE]

theorem sknp (x : Reg) : Statement (.sknp x) := fun _ => by simp [encode, decode, decodeGroupE]

theorem ldVxDT (x : Reg) : Statement (.ldVxDT x) := fun _ => by simp [encode, decode, decodeGroupF]

theorem ldVxK (x : Reg) : Statement (.ldVxK x) := fun _ => by simp [encode, decode, decodeGroupF]

theorem ldDTVx (x : Reg) : Statement (.ldDTVx x) := fun _ => by simp [encode, decode, decodeGroupF]

theorem ldSTVx (x : Reg) : Statement (.ldSTVx x) := fun _ => by simp [encode, decode, decodeGroupF]

theorem addI (x : Reg) : Statement (.addI x) := fun _ => by simp [encode, decode, decodeGroupF]

theorem ldF (x : Reg) : Statement (.ldF x) := fun _ => by simp [encode, decode, decodeGroupF]

theorem ldB (x : Reg) : Statement (.ldB x) := fun _ => by simp [encode, decode, decodeGroupF]

theorem storeRegs (x : Reg) : Statement (.storeRegs x) := fun _ => by simp [encode, decode, decodeGroupF]

theorem loadRegs (x : Reg) : Statement (.loadRegs x) := fun _ => by simp [encode, decode, decodeGroupF]

end Sys2Proof.Laws.RoundTrip
end

