-- ==== Sys2Proof/Laws/Step.lean ====
section
/-! SUPPORT. What a step can do, and what each meaning that has more than one case can do: the lemmas that claims about
runs cite instead of unfolding. -/

namespace Sys2Proof.Machine

variable {s t : State}

/-- Everything a step that answers a next state can have done (R74, R75, R77). -/
theorem step_cases (h : step s = .next t) :
    s.status = .running ∧
    ((s.pc.toNat < Config.progBase ∧ t = (s.fetchError .pcUnderflow).recordResult) ∨
     (Config.fetchLimit ≤ s.pc.toNat ∧ t = (s.fetchError .pcOverflow).recordResult) ∨
     (s.fetchable ∧ ∃ u, execWord s.wordAtPc (s.afterFetch s.wordAtPc) = .next u ∧ t = u.endStep)) := by
  unfold step at h
  split at h
  · cases h
  · next hs =>
    refine ⟨hs, ?_⟩
    split at h
    · next hp => cases h; exact .inl ⟨hp, rfl⟩
    · next hp =>
      split at h
      · next hq => cases h; exact .inr (.inl ⟨hq, rfl⟩)
      · next hq =>
        rw [State.fetchOp_eq s (by omega)] at h
        refine .inr (.inr ⟨⟨hs, by simpa using hp, by simpa using hq⟩, ?_⟩)
        change finishStep (execWord s.wordAtPc (s.afterFetch s.wordAtPc)) = .next t at h
        cases hx : execWord s.wordAtPc (s.afterFetch s.wordAtPc) with
        | next u => rw [hx] at h; cases h; exact ⟨u, rfl, rfl⟩
        | fault f => rw [hx] at h; cases h
        | refused r => rw [hx] at h; cases h

/-- The step of a fetchable machine runs the word at pc (R75, R77). -/
theorem step_fetchable (h : s.fetchable) :
    step s = finishStep (execWord s.wordAtPc (s.afterFetch s.wordAtPc)) := by
  obtain ⟨hs, hlo, hhi⟩ := h
  have h1 : ¬ s.pc.toNat < Config.progBase := by simpa using hlo
  have h2 : ¬ Config.fetchLimit ≤ s.pc.toNat := by simpa using hhi
  simp [step, hs, h1, h2, State.fetchOp_eq s (by simpa using hhi)]

/-- The end of a step records at most the step result. -/
theorem State.endStep_eq (u : State) :
    u.endStep = { u with trace := u.trace ++ if u.waiting then [] else [.result u.status.stepResult] } := by
  obtain ⟨v, index, pc, sp, stack, display, status, lastOp, lastOpValid, mem, waiting, trace, inputs⟩ := u
  cases waiting
  · rfl
  · simp [State.endStep]

/-- An executed word is one instruction's meaning or an illegal instruction (R77, R79). -/
theorem execWord_cases (op : Word) (s : State) :
    (∃ i, decode op = .ok i ∧ execWord op s = exec i s) ∨
    (∃ e, decode op = .error e ∧ execWord op s = .next (s.raise .illegalInstruction)) := by
  unfold execWord
  cases decode op with
  | ok i => exact .inl ⟨i, rfl, rfl⟩
  | error e => exact .inr ⟨e, rfl, rfl⟩

/-! ### The meanings with more than one case -/

variable (s)

theorem execRet_cases :
    (s.sp.val = 0 ∧ execRet s = .next (s.raise .stackUnderflow)) ∨
    ∃ (k : Fin 16) (h : s.sp.val = k.val + 1), execRet s =
      .next { s with sp := ⟨k.val, by have := s.sp.isLt; omega⟩, pc := s.stack[k] } := by
  unfold execRet
  obtain ⟨h0, h⟩ | ⟨k, hk, h⟩ := s.popToPc_cases
  · exact .inl ⟨h0, by rw [h]⟩
  · exact .inr ⟨k, hk, by rw [h]⟩

theorem execCall_cases (nnn : Addr12) :
    (s.sp.val = 16 ∧ execCall nnn s = .next (s.raise .stackOverflow)) ∨
    ∃ h : s.sp.val < 16, execCall nnn s =
      .next { s with stack := s.stack.set s.sp.val s.pc h, sp := ⟨s.sp.val + 1, Nat.succ_lt_succ h⟩,
                     pc := zextAddr nnn } := by
  unfold execCall
  obtain ⟨h0, h⟩ | ⟨hk, h⟩ := s.push_cases s.pc
  · exact .inl ⟨h0, by rw [h]⟩
  · exact .inr ⟨hk, by rw [h]; rfl⟩

theorem execLdB_cases (x : Reg) :
    (4093 < s.index.toNat ∧ execLdB x s = .next (s.raise .indexOverflow)) ∨
    (s.index.toNat ≤ 4093 ∧
      execLdB x s = .next { s with mem := Memory.writeList s.mem s.index.toNat (bcdDigits (s.getV x)) }) := by
  unfold execLdB
  cases h : s.windowOverflows 3
  · rw [State.windowOverflows_eq_false] at h
    refine .inr ⟨by simp only [Config.memSize] at h; omega, ?_⟩
    rw [State.storeBytes_eq]
    · rfl
    · simp [bcdDigits, Config.memSize] at h ⊢; omega
  · rw [State.windowOverflows_eq_true] at h
    exact .inl ⟨by omega, rfl⟩

theorem execStoreRegs_cases (x : Reg) :
    (4095 < s.index.toNat + x.val ∧ execStoreRegs x s = .next (s.raise .indexOverflow)) ∨
    (s.index.toNat + x.val ≤ 4095 ∧
      execStoreRegs x s = .next { s with
        mem := Memory.writeList s.mem s.index.toNat (s.regsUpTo x)
        index := s.index + BitVec.ofNat 16 (x.val + 1) }) := by
  unfold execStoreRegs
  cases h : s.windowOverflows (x.val + 1)
  · rw [State.windowOverflows_eq_false] at h
    refine .inr ⟨by simp only [Config.memSize] at h; omega, ?_⟩
    rw [State.storeBytes_eq]
    · rfl
    · simp [Config.memSize] at h ⊢; omega
  · rw [State.windowOverflows_eq_true] at h
    exact .inl ⟨by omega, rfl⟩

theorem execLoadRegs_cases (x : Reg) :
    (4095 < s.index.toNat + x.val ∧ execLoadRegs x s = .next (s.raise .indexOverflow)) ∨
    (s.index.toNat + x.val ≤ 4095 ∧
      execLoadRegs x s = .next { s with
        v := (State.setVs 0 ((List.range (x.val + 1)).map fun k => Memory.read s.mem (s.index.toNat + k)) s).v
        index := s.index + BitVec.ofNat 16 (x.val + 1) }) := by
  unfold execLoadRegs
  cases h : s.windowOverflows (x.val + 1)
  · rw [State.windowOverflows_eq_false] at h
    refine .inr ⟨by simp only [Config.memSize] at h; omega, ?_⟩
    rw [State.readBytes_eq _ _ _ (by simp only [Config.memSize] at h ⊢; omega)]
    simp only [Bool.false_eq_true, if_false]
    rw [State.setVs_eq]
    rfl
  · rw [State.windowOverflows_eq_true] at h
    exact .inl ⟨by omega, rfl⟩

theorem execDrw_cases (x y : Reg) (n : Nat) :
    (0 < n ∧ 4096 < s.index.toNat + n ∧ execDrw x y n s = .next (s.raise .indexOverflow)) ∨
    ((n = 0 ∨ s.index.toNat + n ≤ 4096) ∧
      execDrw x y n s = .next (State.drawRows (drawColumn s x) (drawRow s y)
        ((List.range n).map fun k => Memory.read s.mem (s.index.toNat + k)) (s.setFlag 0))) := by
  have hx : (s.setFlag 0#8).spriteX x = drawColumn s x := by
    by_cases h : x = 15 <;> simp [State.spriteX, drawColumn, h, eq_comm]
  have hy : (s.setFlag 0#8).spriteY y = drawRow s y := by
    by_cases h : y = 15 <;> simp [State.spriteY, drawRow, h, eq_comm]
  unfold execDrw
  cases h : s.windowOverflows n
  · rw [State.windowOverflows_eq_false] at h
    refine .inr ⟨by simpa using h, ?_⟩
    rcases Nat.eq_zero_or_pos n with h0 | hpos
    · subst h0
      simp [State.readBytes, hx, hy]
    · simp only [Bool.false_eq_true, if_false]
      rw [State.readBytes_eq _ _ _ (by simp only [Config.memSize, State.setFlag_index] at h ⊢; omega)]
      simp [hx, hy]
  · rw [State.windowOverflows_eq_true] at h
    exact .inl ⟨h.1, h.2, rfl⟩

theorem execLdF_cases (x : Reg) :
    (15 < (s.getV x).toNat ∧ execLdF x s = .next (s.raise .illegalDigit)) ∨
    ∃ d : Fin 16, (s.getV x).toNat = d.val ∧ execLdF x s = .next (s.setIndex (glyphAddress d)) := by
  unfold execLdF
  obtain ⟨h0, h⟩ | ⟨d, hd, h⟩ := s.nibbleOf_cases x
  · exact .inl ⟨h0, by rw [h]⟩
  · exact .inr ⟨d, hd, by rw [h]⟩

theorem execSkp_cases (x : Reg) :
    (15 < (s.getV x).toNat ∧ execSkp x s = .next (s.raise .badKey)) ∨
    ∃ k : Key, (s.getV x).toNat = k.val ∧ execSkp x s = .next ((s.callCheckKey k).skipIf (s.keyAnswer k)) := by
  unfold execSkp
  obtain ⟨h0, h⟩ | ⟨d, hd, h⟩ := s.nibbleOf_cases x
  · exact .inl ⟨h0, by rw [h]⟩
  · exact .inr ⟨d, hd, by rw [h]⟩

theorem execSknp_cases (x : Reg) :
    (15 < (s.getV x).toNat ∧ execSknp x s = .next (s.raise .badKey)) ∨
    ∃ k : Key, (s.getV x).toNat = k.val ∧ execSknp x s = .next ((s.callCheckKey k).skipIf (!s.keyAnswer k)) := by
  unfold execSknp
  obtain ⟨h0, h⟩ | ⟨d, hd, h⟩ := s.nibbleOf_cases x
  · exact .inl ⟨h0, by rw [h]⟩
  · exact .inr ⟨d, hd, by rw [h]⟩

theorem execLdVxK_cases (x : Reg) :
    (s.inputs.awaited = [] ∧ execLdVxK x s = .next s.suspend) ∨
    ∃ k rest, s.inputs.awaited = k :: rest ∧ execLdVxK x s = .next ((s.answerAwaitKey k).setV x (keyByte k)) := by
  unfold execLdVxK
  cases h : s.inputs.awaited with
  | nil => exact .inl ⟨rfl, rfl⟩
  | cons k rest => exact .inr ⟨k, rest, rfl, rfl⟩

/-- Construction with the default parameters is the reset state (R270). -/
theorem construct_defaultParams : construct defaultParams = State.reset := by decide

/-- Reset memory is in canonical form. -/
theorem reset_wf : State.reset.mem.wf = true := rfl

/-- Placing an instruction where the next step fetches keeps the canonical form. -/
theorem withFetchWord_wf {s : State} (h : s.mem.wf = true) (hpc : s.pc.toNat + 2 ≤ Config.memSize) (nbits w : Nat) :
    (s.withFetchWord nbits w).mem.wf = true :=
  Memory.wf_writeList h _ _ hpc

/-- The response of a halted machine (R237). -/
theorem respond_halted {s : State} {k : ErrorKind} (h : s.status = .halted k) :
    s.respond = (s, some (Status.halted k).response) := by
  simp [State.respond, h]

/-- The response of a running machine, none while it is suspended (R250, R251). -/
theorem respond_next {s t : State} (h : s.status = .running) (hs : step s = .next t) :
    s.respond = (t, if t.waiting then none else some t.status.response) := by
  simp [State.respond, h, hs]

@[simp] theorem State.dump_lastOp (s : State) : s.dump.lastOp = s.lastOp := rfl
@[simp] theorem State.dump_lastOpValid (s : State) : s.dump.lastOpValid = s.lastOpValid := rfl
@[simp] theorem State.dump_statusCode (s : State) : s.dump.statusCode = s.status.code := rfl

/-- A program load keeps the canonical form. -/
theorem loadProgram_wf {s u : State} {buf : List Byte} (h : s.mem.wf = true) (hl : s.loadProgram buf = .ok u) :
    u.mem.wf = true := by
  unfold State.loadProgram at hl
  split at hl
  · cases hl
    exact Memory.wf_writeList h _ _ (by simp only [Config.progBase, Config.progMax, Config.memSize] at *; omega)
  · cases hl

end Sys2Proof.Machine
end

