-- ==== Sys2Proof/Tests/Slice0.lean ====
section
/-! SUPPORT. The model's own tests: the well-formedness smoke test, one word per constructor written out from its
encoding, one-step tests whose expected values are the vectors of 95_test_vectors.md, and for every obligation with
hypotheses a state and operands that meet them. -/

namespace Sys2Proof.Tests

open Sys2Proof Sys2Proof.Machine

/-- The constructed machine (the start state of the vectors). -/
def base : State := State.reset

/-- A state with some registers set. -/
def withV (s : State) (rs : List (Reg × Byte)) : State := rs.foldl (fun t p => t.setV p.1 p.2) s

/-- A state with bytes stored from an address on. -/
def withBytes (s : State) (a : Nat) (bs : List Byte) : State := { s with mem := Memory.writeList s.mem a bs }

/-- Place a word at pc, take one step, and look at the state after it. -/
def after {α : Type} (s : State) (w : Nat) (look : State → α) : Option α :=
  match step (s.withFetchWord 16 w) with
  | .next t => some (look t)
  | _ => none

/-- Execute an instruction and look at the state after it. -/
def afterExec {α : Type} (i : Instr) (s : State) (look : State → α) : Option α :=
  match exec i s with
  | .next t => some (look t)
  | _ => none

/-! ### Well-formedness (R72: the field n has four bits) -/

theorem test_wf_rejects_height_16 : (Instr.drw 0 0 16).wellFormed = false := by decide
theorem test_wf_accepts_height_15 : (Instr.drw 0 0 15).wellFormed = true := by decide

/-! ### Decoding: one word per constructor, bit by bit from R73 and R78 -/

theorem test_decode_control :
    decode 0b0000000011101110#16 = .ok .ret ∧ decode 0b0001010000100010#16 = .ok (.jp 0x422#12) ∧
    decode 0b0010010000100010#16 = .ok (.call 0x422#12) ∧ decode 0b1011010000100010#16 = .ok (.jpV0 0x422#12) ∧
    decode 0b0011110000001001#16 = .ok (.seImm 12 9#8) ∧ decode 0b0100110000001001#16 = .ok (.sneImm 12 9#8) ∧
    decode 0b0101110000110000#16 = .ok (.seReg 12 3) ∧ decode 0b1001110000110000#16 = .ok (.sneReg 12 3) := by decide

theorem test_decode_alu :
    decode 0b0110101000000010#16 = .ok (.ldImm 10 2#8) ∧ decode 0b0111101000000101#16 = .ok (.addImm 10 5#8) ∧
    decode 0b1000000100100000#16 = .ok (.ldReg 1 2) ∧ decode 0b1000000100100001#16 = .ok (.orReg 1 2) ∧
    decode 0b1000000100100010#16 = .ok (.andReg 1 2) ∧ decode 0b1000000100100011#16 = .ok (.xorReg 1 2) ∧
    decode 0b1000000100100100#16 = .ok (.addReg 1 2) ∧ decode 0b1000000100100101#16 = .ok (.subReg 1 2) ∧
    decode 0b1000000100100110#16 = .ok (.shrReg 1 2) ∧ decode 0b1000000100100111#16 = .ok (.subnReg 1 2) ∧
    decode 0b1000000100101110#16 = .ok (.shlReg 1 2) ∧ decode 0b1100001100001111#16 = .ok (.rnd 3 15#8) := by decide

theorem test_decode_index_and_display :
    decode 0b1010001100000000#16 = .ok (.ldI 0x300#12) ∧ decode 0b1111001000011110#16 = .ok (.addI 2) ∧
    decode 0b1111000100101001#16 = .ok (.ldF 1) ∧ decode 0b1111000000110011#16 = .ok (.ldB 0) ∧
    decode 0b1111001001010101#16 = .ok (.storeRegs 2) ∧ decode 0b1111001001100101#16 = .ok (.loadRegs 2) ∧
    decode 0b0000000011100000#16 = .ok .cls ∧ decode 0b1101001101000101#16 = .ok (.drw 3 4 5) := by decide

theorem test_decode_host :
    decode 0b1110010110011110#16 = .ok (.skp 5) ∧ decode 0b1110010110100001#16 = .ok (.sknp 5) ∧
    decode 0b1111001100000111#16 = .ok (.ldVxDT 3) ∧ decode 0b1111001000001010#16 = .ok (.ldVxK 2) ∧
    decode 0b1111001100010101#16 = .ok (.ldDTVx 3) ∧ decode 0b1111001100011000#16 = .ok (.ldSTVx 3) := by decide

/-- F7 to F15: words of every illegal group, rejected by name. -/
theorem test_decode_illegal :
    decode 0x0000#16 = .error (.illegalGroup0 0x0000#16) ∧ decode 0x0123#16 = .error (.illegalGroup0 0x0123#16) ∧
    decode 0x5121#16 = .error (.illegalGroup5 0x5121#16) ∧ decode 0x812F#16 = .error (.illegalGroup8 0x812F#16) ∧
    decode 0x9121#16 = .error (.illegalGroup9 0x9121#16) ∧ decode 0xE19F#16 = .error (.illegalGroupE 0xE19F#16) ∧
    decode 0xF175#16 = .error (.illegalGroupF 0xF175#16) ∧ decodeBytes [0x12#8] = .error .truncated := by decide

/-- The opcode map's row of each sample word is the row of the instruction it decodes to. -/
theorem test_table_word : decodeTableWord 16 0xD125 = some (.drw 1 2 5) ∧ decodeTableWord 16 0x5121 = none := by decide

/-! ### Fetch (95_test_vectors.md 2.1) -/

/-- F1: PcUnderflow at 1FE; nothing is rewound. -/
theorem test_fetch_underflow :
    (match step { base with pc := 0x1FE } with
     | .next t => decide (t.status = .halted .pcUnderflow ∧ t.pc = 0x1FE ∧ t.lastOpValid = false)
     | _ => false) = true := by decide

/-- F3: PcOverflow at 4095. -/
theorem test_fetch_overflow :
    (match step { base with pc := 0xFFF } with
     | .next t => decide (t.status = .halted .pcOverflow ∧ t.pc = 0xFFF ∧ t.lastOpValid = false)
     | _ => false) = true := by decide

/-- F5: the last fetchable address. -/
theorem test_fetch_last_address :
    after { base with pc := 0xFFE } 0x6A01 (fun t => (t.getV 10, t.pc, t.status)) = some (1, 0x1000, .running) := by decide

/-- F6: an odd pc is fetched like any other. -/
theorem test_fetch_odd_pc :
    after { base with pc := 0x201 } 0x6012 (fun t => (t.getV 0, t.pc)) = some (0x12, 0x203) := by decide

/-- F7: an illegal word is latched and halts at its address. -/
theorem test_illegal_word :
    after base 0x0000 (fun t => (t.status, t.pc, t.lastOp, t.lastOpValid)) =
      some (.halted .illegalInstruction, 0x200, 0, true) := by decide

/-! ### Control transfer (2.2) -/

/-- J1 and J2. -/
theorem test_ret_empty :
    after { base with pc := 0x300 } 0x00EE (fun t => (t.status, t.pc, t.sp.val)) =
      some (.halted .stackUnderflow, 0x300, 0) := by decide
theorem test_ret_pops :
    after { base with pc := 0x500, sp := 2, stack := (base.stack.set 0 0x206).set 1 0x3AA } 0x00EE
      (fun t => (t.pc, t.sp.val, t.stack[1])) = some (0x3AA, 1, 0x3AA) := by decide

/-- J3 and J4. -/
theorem test_jp_self :
    after { base with pc := 0x300 } 0x1300 (fun t => (t.status, t.pc)) = some (.halted .infiniteLoop, 0x300) := by decide
theorem test_jp_next :
    after { base with pc := 0x300 } 0x1302 (fun t => (t.status, t.pc)) = some (.running, 0x302) := by decide

/-- J7 and J8. -/
theorem test_call_last_slot :
    after { base with pc := 0x300, sp := 15 } 0x2400 (fun t => (t.stack[15], t.sp.val, t.pc)) =
      some (0x302, 16, 0x400) := by decide
theorem test_call_full :
    after { base with pc := 0x300, sp := 16 } 0x2400 (fun t => (t.status, t.pc, t.sp.val)) =
      some (.halted .stackOverflow, 0x300, 16) := by decide

/-- J10 and J11. -/
theorem test_jpV0_top :
    after (base.setV 0 0xFF) 0xBFFF (fun t => (t.pc, t.status)) = some (0x10FE, .running) := by decide
theorem test_jpV0_self : after base 0xB200 (fun t => (t.pc, t.status)) = some (0x200, .running) := by decide

/-- J13, J14, J16, J17. -/
theorem test_seImm :
    after (base.setV 3 0x10) 0x3310 State.pc = some 0x204 ∧ after (base.setV 3 0x10) 0x3311 State.pc = some 0x202 := by
  decide
theorem test_sneImm :
    after (base.setV 3 0x10) 0x4310 State.pc = some 0x202 ∧ after (base.setV 3 0x10) 0x4311 State.pc = some 0x204 := by
  decide
theorem test_seReg :
    after (withV base [(1, 7), (2, 7)]) 0x5120 State.pc = some 0x204 ∧
    after (withV base [(1, 7), (2, 8)]) 0x5120 State.pc = some 0x202 := by decide
theorem test_sneReg :
    after (withV base [(1, 7), (2, 8)]) 0x9120 State.pc = some 0x204 ∧
    after (withV base [(1, 7), (2, 8)]) 0x9110 State.pc = some 0x202 := by decide

/-! ### ALU (2.3) -/

/-- Look at V[1] and V[F]. -/
def v1f (t : State) : Byte × Byte := (t.getV 1, t.getV 15)

theorem test_ldImm_A1 : after base 0x6FAB (·.getV 15) = some 0xAB := by decide
theorem test_addImm_A2 : after (withV base [(1, 0xFF), (15, 0x55)]) 0x7101 v1f = some (0x00, 0x55) := by decide
theorem test_ldReg_A5 : after (withV base [(2, 0x33), (15, 0x55)]) 0x8120 v1f = some (0x33, 0x55) := by decide
theorem test_orReg_A7 : after (withV base [(1, 0x01), (15, 0x80)]) 0x81F1 v1f = some (0x81, 0x00) := by decide
theorem test_orReg_A8 : after (withV base [(15, 0x0F), (1, 0xF0)]) 0x8F11 (·.getV 15) = some 0x00 := by decide
theorem test_andReg_S2 : after (withV base [(15, 0xFF), (1, 0x3C), (2, 0x0F)]) 0x8122 v1f = some (0x0C, 0x00) := by decide
theorem test_xorReg_A9 : after (withV base [(1, 0x3C), (15, 0x55)]) 0x8113 v1f = some (0x00, 0x00) := by decide
theorem test_addReg_A10 : after (withV base [(1, 0x80), (2, 0x80)]) 0x8124 v1f = some (0x00, 0x01) := by decide
theorem test_addReg_A14 : after (withV base [(15, 0x05), (1, 0xFF)]) 0x8F14 (·.getV 15) = some 0x01 := by decide
theorem test_subReg_A16 : after (withV base [(1, 5), (2, 5), (15, 0x55)]) 0x8125 v1f = some (0x00, 0x01) := by decide
theorem test_subReg_A17 : after (withV base [(1, 0), (2, 1), (15, 0x55)]) 0x8125 v1f = some (0xFF, 0x00) := by decide
theorem test_shrReg_A22 : after (withV base [(1, 0xAA), (2, 0xFF)]) 0x8126 v1f = some (0x7F, 0x01) := by decide
theorem test_shrReg_A24 : after (withV base [(15, 0x03)]) 0x81F6 v1f = some (0x00, 0x01) := by decide
theorem test_subnReg_A19 : after (withV base [(1, 5), (2, 3), (15, 0x55)]) 0x8127 v1f = some (0xFE, 0x00) := by decide
theorem test_subnReg_A20 : after (withV base [(1, 3), (2, 5), (15, 0x55)]) 0x8127 v1f = some (0x02, 0x01) := by decide
theorem test_shlReg_A26 : after (withV base [(2, 0xFF)]) 0x812E v1f = some (0xFE, 0x01) := by decide
theorem test_shlReg_A27 : after (withV base [(15, 0x81)]) 0x81FE v1f = some (0x02, 0x01) := by decide
theorem test_rnd_A30 :
    after (base.supplyRandom 0x5A) 0xC1F0 (fun t => (t.getV 1, t.inputs.random, t.inputs.draws)) = some (0x50, [], 1) := by
  decide
/-- A29: the mask 00 gives 0 whatever the random byte is. -/
theorem test_rnd_mask_zero (b : Byte) : (exec (.rnd 0 0#8) (base.supplyRandom b)) =
    .next ((base.supplyRandom b).takeRandom.setV 0 0#8) := by
  simp [exec, execRnd]

/-! ### Index and memory (2.4) -/

theorem test_ldI_M1 : after base 0xAFFF State.index = some 0x0FFF := by decide
theorem test_addI_M2 :
    after { withV base [(0, 0x20), (15, 0x55)] with index := 0xFFF0 } 0xF01E (fun t => (t.index, t.getV 15)) =
      some (0x0010, 0x55) := by decide
theorem test_ldF_M4 : after (base.setV 0 0x0F) 0xF029 State.index = some 0x004B := by decide
theorem test_ldF_M6 :
    after (base.setV 0 0x10) 0xF029 (fun t => (t.status, t.pc, t.index)) = some (.halted .illegalDigit, 0x200, 0) := by
  decide
theorem test_ldB_M10 :
    after { base.setV 0 0x7B with index := 0xFFD } 0xF033
      (fun t => ((State.readBytes t 0xFFD 3).toOption, t.index, t.status)) = some (some [1, 2, 3], 0xFFD, .running) := by
  decide
theorem test_ldB_M11 :
    after { base.setV 0 0xFF with index := 0xFFE } 0xF033 (fun t => (t.status, t.pc, Memory.read t.mem 0xFFE)) =
      some (.halted .indexOverflow, 0x200, 0) := by decide
theorem test_storeRegs_example :
    after { withV base [(0, 1), (1, 2), (2, 3)] with index := 0x300 } 0xF255
      (fun t => ((State.readBytes t 0x300 4).toOption, t.index)) = some (some [1, 2, 3, 0], 0x303) := by decide
theorem test_storeRegs_M14 :
    after { base with index := 0xFF1 } 0xFF55 (fun t => (t.status, t.pc, t.index)) =
      some (.halted .indexOverflow, 0x200, 0xFF1) := by decide
/-- M18: V[F] is loaded with the first byte of glyph 3 (the default FONT). -/
theorem test_loadRegs_M18 :
    after base 0xFF65 (fun t => (t.v.toList, t.index)) =
      some ([0xF0, 0x90, 0x90, 0x90, 0xF0, 0x20, 0x60, 0x20, 0x20, 0x70, 0xF0, 0x10, 0xF0, 0x80, 0xF0, 0xF0], 0x10) := by
  decide
theorem test_loadRegs_M19 :
    after { base with index := 0xFFF1 } 0xF065 (fun t => (t.status, t.index)) =
      some (.halted .indexOverflow, 0xFFF1) := by decide

/-! ### Display (2.5) -/

/-- Plot events as triples; other entries are dropped. -/
def plots (t : State) : List (Nat × Nat × Bool) :=
  t.trace.filterMap fun e => match e with
    | .host (.plot x y b) => some (x.val, y.val, b)
    | _ => none

theorem test_cls_G1 :
    after ((base.setPixel 5 7 true).setV 15 0x55) 0x00E0 (fun t => (t.pixel 5 7, t.getV 15, t.trace)) =
      some (false, 0x55, [.host .clear, .result .ok]) := by decide
/-- G7: collision, and the post-XOR values in order. -/
theorem test_drw_G7 :
    after { withBytes (base.setPixel 0 0 true) 0x300 [0xC0] with index := 0x300 } 0xD011 plots =
      some [(0, 0, false), (1, 0, true)] ∧
    after { withBytes (base.setPixel 0 0 true) 0x300 [0xC0] with index := 0x300 } 0xD011
      (fun t => (t.pixel 0 0, t.pixel 1 0, t.getV 15)) = some (false, true, 1#8) := by decide
/-- G10 and the right clip of G5: V[F] is read as 0 and columns past 63 are dropped. -/
theorem test_drw_G5_G10 :
    after { withBytes (base.setV 0 0x3E) 0x300 [0xFF] with index := 0x300 } 0xD011 plots =
      some [(62, 0, true), (63, 0, true)] ∧
    after { withBytes (base.setV 15 0x10) 0x300 [0x80] with index := 0x300 } 0xDF11 (fun t => (t.pixel 0 0, t.getV 15)) =
      some (true, 0) := by decide

/-! ### Keypad and timers (2.6) -/

theorem test_skp_H1 :
    after ((base.setV 5 0x0C).supplyKeyDown true) 0xE59E (fun t => (t.pc, t.trace)) =
      some (0x204, [.host (.checkKey 12 true), .result .ok]) := by decide
theorem test_skp_H5 :
    after (base.setV 5 0x10) 0xE59E (fun t => (t.status, t.pc, t.trace)) =
      some (.halted .badKey, 0x200, [.result (.halted .badKey)]) := by decide
theorem test_sknp_H4 : after ((base.setV 5 0x0C).supplyKeyDown false) 0xE5A1 State.pc = some 0x204 := by decide
theorem test_ldVxDT_H6 :
    after (base.supplyDelay 0x3C) 0xF307 (fun t => (t.getV 3, t.trace)) =
      some (0x3C, [.host (.getDelayTimer 0x3C), .result .ok]) := by decide
theorem test_ldDTVx_H8 :
    after (base.setV 3 0x3C) 0xF315 State.trace = some [.host (.setDelayTimer 0x3C), .result .ok] := by decide
theorem test_ldSTVx_H9 :
    after (base.setV 3 0x05) 0xF318 State.trace = some [.host (.setSoundTimer 0x05), .result .ok] := by decide
theorem test_ldVxK_H10 :
    after (base.supplyKey 7) 0xF20A (fun t => (t.getV 2, t.waiting, t.trace)) =
      some (7, false, [.host (.awaitKey 7), .result .ok]) := by decide
/-- H12: no answer, the step does not complete. -/
theorem test_ldVxK_H12 :
    after base 0xF20A (fun t => (t.waiting, t.pc, t.trace, t.getV 2)) = some (true, 0x200, [], 0) := by decide

/-- X1: the step port of a halted machine, with the code of R30. -/
theorem test_respond_X1 :
    (State.respond { base with status := .halted .badKey }).2 = some ⟨.halted .badKey, 9#4⟩ := by decide

/-- R30, R31, R258: after a fetch error the debug port still gives last_op, no longer valid, with the code. -/
theorem test_dump_after_fetch_error :
    (match step { base with pc := 0x1FE, lastOp := 0x6A02, lastOpValid := true } with
     | .next t => decide ((t.dump.lastOp, t.dump.lastOpValid, t.dump.statusCode) = (0x6A02#16, false, 1#4))
     | _ => false) = true := by decide

/-- R258: the raw bytes of an illegal word, which was fetched. -/
theorem test_dump_raw_bytes :
    after base 0x5121 (fun t => (t.dump.rawBytes, t.dump.statusCode)) = some (some [0x51, 0x21], 6#4) := by decide

/-! ### Witnesses: every obligation's hypotheses are met -/

/-- The machine with a word at pc. -/
def at200 (w : Nat) : State := base.withFetchWord 16 w

theorem witness_DecodeOfEncodeIsIdentity : (Instr.drw 15 15 15).wellFormed = true := by decide
theorem witness_EncodeOfDecodeIsIdentity : decode 0xFF65#16 = .ok (.loadRegs 15) := by decide
theorem witness_IllegalWordsHaltTheMachine :
    base.fetchable ∧ IllegalWord base.wordAtPc ∧ IllegalWord 0x0FFF#16 ∧ IllegalWord 0x5FFF#16 ∧ IllegalWord 0x8FFF#16 ∧
    IllegalWord 0x9001#16 ∧ IllegalWord 0xE0A0#16 ∧ IllegalWord 0xFFFF#16 := by
  refine ⟨by decide, .inl (by decide), .inl (by decide), .inr (.inl (by decide)), .inr (.inr (.inl (by decide))),
    .inr (.inr (.inr (.inl (by decide)))), .inr (.inr (.inr (.inr (.inl (by decide))))),
    .inr (.inr (.inr (.inr (.inr (by decide)))))⟩
theorem witness_StepRunsTheDecodedInstruction :
    let s : State := { base with pc := 0xFFE }
    let t := s.withFetchWord 16 0x6A01
    t.fetchable ∧ decodeBytes [Memory.read t.mem t.pc.toNat, Memory.read t.mem (t.pc.toNat + 1)] =
      .ok (.ldImm 10 1#8, []) := by decide
theorem witness_FetchChecksGuardTheProgramCounter :
    let s (w : Word) : State := { base with pc := w }
    (s 0x1FF).status = .running ∧ (s 0x1FF).pc.toNat < 0x200 ∧ 4095 ≤ (s 0xFFF).pc.toNat ∧
    0x200 ≤ (s 0x200).pc.toNat ∧ (s 0xFFE).pc.toNat < 4095 ∧
    (after (s 0xFFE) 0x6A01 State.status = some .running) := by decide
theorem witness_FetchedWordIsLatched : (at200 0x6A02).fetchable ∧ ∃ t, step (at200 0x6A02) = .next t :=
  ⟨by decide, _, rfl⟩
/-- The register clauses of the ALU statements: x or y is 15, or is not. -/
theorem witness_registers : (14 : Reg) ≠ 15 ∧ (15 : Reg) = 15 := by decide
theorem witness_RandomIsMaskedAndConsumed : (base.supplyRandom 0x5A).inputs.random = 0x5A :: [] := by decide
theorem witness_OnlyListedInstructionsWriteRegisters :
    (∃ t, exec (.loadRegs 3) base = .next t) ∧ ¬ writesReg (.loadRegs 3) 4 := ⟨⟨_, rfl⟩, by unfold writesReg; decide⟩
theorem witness_ReturnPopsTheCallStack :
    base.sp.val = 0 ∧ ({ base with sp := 16 } : State).sp.val = (15 : Fin 16).val + 1 ∧
    ({ base with sp := 1 } : State).sp.val = (0 : Fin 16).val + 1 := by decide
theorem witness_JumpGoesToItsTargetOrHaltsOnItself :
    (0x1FE#12).setWidth 16 = base.pc - 2 ∧ (0x200#12).setWidth 16 ≠ base.pc - 2 := by decide
theorem witness_CallPushesTheReturnAddress :
    ({ base with sp := 16 } : State).sp.val = 16 ∧ ({ base with sp := 15 } : State).sp.val = (15 : Fin 16).val ∧
    base.sp.val = (0 : Fin 16).val := by decide
theorem witness_ReturnUndoesCall :
    base.sp.val < 16 ∧ ∃ t, exec (.call 0x400#12) base = .next t ∧ t.sp = t.sp ∧ t.stack = t.stack :=
  ⟨by decide, _, rfl, rfl, rfl⟩
theorem witness_ProgramCounterAfterAStep :
    (∃ t, step (at200 0x1200) = .next t ∧ t.status = .halted .infiniteLoop) ∧
    (∃ t, step (at200 0x3000) = .next t ∧ t.status = .running ∧ t.waiting = false) :=
  ⟨⟨_, rfl, rfl⟩, ⟨_, rfl, rfl, rfl⟩⟩
theorem witness_OnlyCallAndReturnMoveTheStack : ∃ t, exec (.call 0x400#12) base = .next t := ⟨_, rfl⟩
theorem witness_GlyphAddressOrIllegalDigit :
    ((base.setV 1 15).getV 1).toNat ≤ 15 ∧ 15 < ((base.setV 1 16).getV 1).toNat := by decide
theorem witness_BcdStoresThreeDigitsAtI :
    base.mem.wf = true ∧ ({ base with index := 4093 } : State).index.toNat ≤ 4093 ∧
    4093 < ({ base with index := 4094 } : State).index.toNat := by decide
theorem witness_StoreRegistersAtI :
    base.mem.wf = true ∧ ({ base with index := 4080 } : State).index.toNat + (15 : Reg).val ≤ 4095 ∧
    4095 < ({ base with index := 4081 } : State).index.toNat + (15 : Reg).val := by decide
theorem witness_LoadRegistersFromI :
    ({ base with index := 4095 } : State).index.toNat + (0 : Reg).val ≤ 4095 ∧ (0 : Reg) ≤ 0 ∧ (0 : Reg) < 15 ∧
    4095 < ({ base with index := 4096 } : State).index.toNat + (0 : Reg).val := by decide
/-- A state with I at 0x300, after Fx55 with x = 1, and the state with its memory and the old I. -/
theorem witness_StoreThenLoadRestoresRegisters :
    let s : State := { base with index := 0x300 }
    s.mem.wf = true ∧ s.index.toNat + (1 : Reg).val ≤ 4095 ∧
    ∃ t, exec (.storeRegs 1) s = .next t ∧ ({ s with mem := t.mem } : State).mem = t.mem ∧
      ({ s with mem := t.mem } : State).index = s.index := ⟨by decide, by decide, _, rfl, rfl, rfl⟩
theorem witness_OnlyStoresWriteMemory : base.mem.wf = true ∧ ∃ t, exec (.ldB 0) base = .next t := ⟨rfl, _, rfl⟩
theorem witness_StoredBytesAreFetched :
    let s : State := { base with index := 0x300 }
    s.mem.wf = true ∧ s.index.toNat + (1 : Reg).val ≤ 4095 ∧ 1 ≤ (1 : Reg).val ∧
    ∃ t, exec (.storeRegs 1) s = .next t ∧ ({ base with mem := t.mem, pc := s.index } : State).mem = t.mem ∧
      ({ base with mem := t.mem, pc := s.index } : State).pc = s.index := ⟨by decide, by decide, by decide, _, rfl, rfl, rfl⟩
theorem witness_OnlyListedInstructionsWriteIndex :
    ∃ t, exec (.ldI 0x300#12) base = .next t ∧ t.index ≠ base.index := ⟨_, rfl, by decide⟩
theorem witness_DrawChecksEveryRowAddress :
    1 ≤ 1 ∧ 4095 < ({ base with index := 4096 } : State).index.toNat + 1 - 1 := by decide
/-- Both bounds of a draw, a covered pixel that is set, and covered pixels that are all clear. -/
theorem witness_DrawInvertsTheCoveredPixels :
    (({ base with index := 4095 } : State).index.toNat + 1 - 1 ≤ 4095) ∧
    (drawCovers (base.setPixel 0 0 true) 1 2 1 0 0 = true ∧ (base.setPixel 0 0 true).pixel 0 0 = true) ∧
    drawCovers base 1 2 1 0 0 = true ∧
    (∀ (px : Fin 64) (py : Fin 32), drawCovers base 1 2 1 px py = true → base.pixel px py = false) :=
  ⟨by decide, by decide, by decide, fun px py _ => State.pixel_clearDisplay base px py⟩
theorem witness_DrawReportsEveryPixelInOrder : base.index.toNat + 15 - 1 ≤ 4095 := by decide
/-- A first draw, a covered pixel that was clear, and (for a draw of no row) no covered pixel at all. -/
theorem witness_DrawingTwiceRestoresTheDisplay :
    (base.index.toNat + 1 - 1 ≤ 4095 ∧ (∃ t, exec (.drw 1 2 1) base = .next t) ∧
      drawCovers base 1 2 1 0 0 = true ∧ base.pixel 0 0 = false) ∧
    ((∃ t, exec (.drw 1 2 0) base = .next t) ∧
      ∀ (px : Fin 64) (py : Fin 32), drawCovers base 1 2 0 px py = true → base.pixel px py = true) :=
  ⟨⟨by decide, ⟨_, rfl⟩, by decide, by decide⟩, ⟨_, rfl⟩, fun px py h => by simp [drawCovers] at h; omega⟩
theorem witness_OnlyClearAndDrawChangeTheDisplay :
    ∃ t, exec .cls (base.setPixel 5 7 true) = .next t ∧ t.pixel 5 7 ≠ (base.setPixel 5 7 true).pixel 5 7 :=
  ⟨_, rfl, by decide⟩
theorem witness_KeySkipsFollowTheHostsAnswer :
    ((base.setV 5 15).getV 5).toNat = (15 : Key).val ∧ 15 < ((base.setV 5 16).getV 5).toNat ∧
    (base.supplyKeyDown true).inputs.keyDown = true :: [] := by decide
theorem witness_DelayTimerIsReadFromTheHost : (base.supplyDelay 0x3C).inputs.delay = 0x3C :: [] := by decide
theorem witness_KeyWaitWritesTheSuppliedKey : (base.supplyKey 7).inputs.awaited = 7 :: [] := by decide
theorem witness_KeyWaitIsSuspendedUntilAKeyArrives :
    (at200 0xF20A).fetchable ∧ decode (at200 0xF20A).wordAtPc = .ok (.ldVxK 2) ∧ (at200 0xF20A).inputs.awaited = [] := by
  decide
theorem witness_StepTraceIsHostOperationsThenResult :
    (∃ t, step (at200 0x00E0) = .next t ∧ t.waiting = false ∧ t.status = .running) ∧
    decode (at200 0x00E0).wordAtPc = .ok .cls ∧ hostOpCount .cls = some 1 ∧
    (∃ t, step base = .next t ∧ t.waiting = false ∧ t.status = .halted .illegalInstruction) :=
  ⟨⟨_, rfl, rfl, rfl⟩, by decide, rfl, ⟨_, rfl, rfl, rfl⟩⟩
theorem witness_ErrorStepsChangeNothingElse :
    ∃ t, step base = .next t ∧ t.status = .halted .illegalInstruction ∧ base.waiting = false := ⟨_, rfl, rfl, rfl⟩
theorem witness_RunningMachinesAlwaysStep : base.status = .running := rfl
theorem witness_HaltedMachinesHaveNoStep : ({ base with status := .halted .badKey } : State).status = .halted .badKey := rfl
theorem witness_ProgramLoadCopiesTheBuffer :
    base.mem.wf = true ∧ (List.replicate 3584 (0 : Byte)).length ≤ 3584 ∧
    3584 < (List.replicate 3585 (0 : Byte)).length ∧ 0 < ([0x12#8] : List Byte).length :=
  ⟨rfl, by rw [List.length_replicate], by rw [List.length_replicate]; decide, by decide⟩
theorem witness_PortsReadTheStatusAndTheDebugLatch :
    (at200 0x6A02).status = .running ∧ (∃ t, step (at200 0x6A02) = .next t ∧ t.waiting = false) ∧
    (∃ t, ({ base with pc := 0x1FF } : State).pc.toNat < 0x200 ∧ step { base with pc := 0x1FF } = .next t) ∧
    (∃ t, 4095 ≤ ({ base with pc := 0xFFF } : State).pc.toNat ∧ step { base with pc := 0xFFF } = .next t) :=
  ⟨by decide, ⟨_, rfl, rfl⟩, ⟨_, by decide, rfl⟩, ⟨_, by decide, rfl⟩⟩
theorem witness_StatusCodesAreDistinct : Status.running.code = Status.running.code := rfl
theorem witness_StepKeepsTheInvariant : (at200 0x6A02).Inv ∧ ∃ t, step (at200 0x6A02) = .next t :=
  ⟨⟨by decide, by decide, by decide, fun h => absurd h (by decide), trivial⟩, _, rfl⟩

end Sys2Proof.Tests
end

section
/-! SUPPORT. Where pc stands after an instruction and after a step (10_state.md R24), and the statement about it. -/

namespace Sys2Proof.Machine

/-! ### The end of a step and a draw leave pc and the status -/

@[simp] theorem State.endStep_pc (u : State) : u.endStep.pc = u.pc := by rw [State.endStep_eq]

@[simp] theorem State.endStep_status (u : State) : u.endStep.status = u.status := by rw [State.endStep_eq]

@[simp] theorem State.endStep_waiting (u : State) : u.endStep.waiting = u.waiting := by rw [State.endStep_eq]

theorem DrawFrame.pc_eq {s t : State} (h : DrawFrame s t) : t.pc = s.pc := by rw [h.rest]

theorem DrawFrame.status_eq {s t : State} (h : DrawFrame s t) : t.status = s.status := by rw [h.rest]

/-! ### Where an instruction leaves pc -/

/-- The rows of the opcode map that skip conditionally (R104 to R107, R210, R211). -/
abbrev skipRows : List String := ["3xnn", "4xnn", "5xy0", "9xy0", "Ex9E", "ExA1"]

/-- The values an instruction that completes in s may leave in pc; s.pc has already been advanced past it (R24). -/
inductive PcTarget (s : State) : Instr → Word → Prop
  | sequential {i : Instr} : PcTarget s i s.pc
  | skip {i : Instr} (hi : mnemonicOf i ∈ skipRows) : PcTarget s i (s.pc + 2)
  | jp (nnn : Addr12) : PcTarget s (.jp nnn) (zextAddr nnn)
  | call (nnn : Addr12) : PcTarget s (.call nnn) (zextAddr nnn)
  | jpV0 (nnn : Addr12) : PcTarget s (.jpV0 nnn) (s.computedTarget nnn)
  | ret (k : Fin 16) (hk : s.sp.val = k.val + 1) : PcTarget s .ret s.stack[k]

/-- What an instruction run in s may answer, as far as pc and the status go: an error, a suspension, or a completed
instruction that kept the status and left pc at one of its targets. -/
inductive ExecOutcome (s : State) (i : Instr) : State → Prop
  | raised (k : ErrorKind) : ExecOutcome s i (s.raise k)
  | suspended : ExecOutcome s i s.suspend
  | completed {u : State} (hstatus : u.status = s.status) (hpc : PcTarget s i u.pc) : ExecOutcome s i u

variable {s t : State} {i : Instr}

/-- A conditional skip from a state with the pc and the status of s completes. -/
theorem ExecOutcome.of_skipIf (hi : mnemonicOf i ∈ skipRows) (hpc : t.pc = s.pc) (hstatus : t.status = s.status)
    (c : Bool) : ExecOutcome s i (t.skipIf c) := by
  cases c with
  | false => exact .completed hstatus (hpc ▸ .sequential)
  | true => exact .completed hstatus (by simpa [State.skipIf, hpc] using PcTarget.skip hi)

/-- Every instruction answers a next state, and with one of the outcomes of `ExecOutcome`. -/
theorem exec_outcome (s : State) (i : Instr) : ∃ u, exec i s = .next u ∧ ExecOutcome s i u := by
  cases i with
  | cls | ldImm _ _ | addImm _ _ | ldReg _ _ | orReg _ _ | andReg _ _ | xorReg _ _ | addReg _ _ | subReg _ _
  | shrReg _ _ | subnReg _ _ | shlReg _ _ | rnd _ _ | ldI _ | addI _ | ldVxDT _ | ldDTVx _ | ldSTVx _ =>
    exact ⟨_, rfl, .completed rfl .sequential⟩
  | seImm _ _ | sneImm _ _ | seReg _ _ | sneReg _ _ =>
    exact ⟨_, rfl, .of_skipIf (by simp [mnemonicOf]) rfl rfl _⟩
  | skp x =>
    obtain ⟨-, hx⟩ | ⟨k, -, hx⟩ := execSkp_cases s x
    · exact ⟨_, hx, .raised _⟩
    · exact ⟨_, hx, .of_skipIf (by simp [mnemonicOf]) (s.callCheckKey_pc k) rfl _⟩
  | sknp x =>
    obtain ⟨-, hx⟩ | ⟨k, -, hx⟩ := execSknp_cases s x
    · exact ⟨_, hx, .raised _⟩
    · exact ⟨_, hx, .of_skipIf (by simp [mnemonicOf]) (s.callCheckKey_pc k) rfl _⟩
  | jp nnn =>
    by_cases hself : zextAddr nnn = s.fetchPc
    · exact ⟨_, if_pos hself, .raised _⟩
    · exact ⟨_, if_neg hself, .completed rfl (.jp nnn)⟩
  | call nnn =>
    obtain ⟨-, hx⟩ | ⟨_, hx⟩ := execCall_cases s nnn
    · exact ⟨_, hx, .raised _⟩
    · exact ⟨_, hx, .completed rfl (.call nnn)⟩
  | jpV0 nnn => exact ⟨_, rfl, .completed rfl (.jpV0 nnn)⟩
  | ret =>
    obtain ⟨-, hx⟩ | ⟨k, hk, hx⟩ := execRet_cases s
    · exact ⟨_, hx, .raised _⟩
    · exact ⟨_, hx, .completed rfl (.ret k hk)⟩
  | ldVxK x =>
    obtain ⟨-, hx⟩ | ⟨_, _, -, hx⟩ := execLdVxK_cases s x
    · exact ⟨_, hx, .suspended⟩
    · exact ⟨_, hx, .completed rfl .sequential⟩
  | drw x y n =>
    obtain ⟨-, -, hx⟩ | ⟨-, hx⟩ := execDrw_cases s x y n
    · exact ⟨_, hx, .raised _⟩
    · have hdraw := State.drawRows_frame (s.setFlag 0) (drawColumn s x) (drawRow s y)
        ((List.range n).map fun k => Memory.read s.mem (s.index.toNat + k))
      exact ⟨_, hx, .completed hdraw.status_eq (hdraw.pc_eq ▸ .sequential)⟩
  | ldF x =>
    obtain ⟨-, hx⟩ | ⟨_, -, hx⟩ := execLdF_cases s x
    · exact ⟨_, hx, .raised _⟩
    · exact ⟨_, hx, .completed rfl .sequential⟩
  | ldB x =>
    obtain ⟨-, hx⟩ | ⟨-, hx⟩ := execLdB_cases s x
    · exact ⟨_, hx, .raised _⟩
    · exact ⟨_, hx, .completed rfl .sequential⟩
  | storeRegs x =>
    obtain ⟨-, hx⟩ | ⟨-, hx⟩ := execStoreRegs_cases s x
    · exact ⟨_, hx, .raised _⟩
    · exact ⟨_, hx, .completed rfl .sequential⟩
  | loadRegs x =>
    obtain ⟨-, hx⟩ | ⟨-, hx⟩ := execLoadRegs_cases s x
    · exact ⟨_, hx, .raised _⟩
    · exact ⟨_, hx, .completed rfl .sequential⟩

/-! ### Where a step leaves pc -/

/-- A step halts at its own pc, is suspended there, or completes the instruction at pc and leaves pc at one of that
instruction's targets (R24, R232, R251). -/
theorem step_pc_cases (h : step s = .next t) :
    (∃ k, t.status = .halted k ∧ t.pc = s.pc) ∨
    (t.status = .running ∧ t.waiting = true ∧ t.pc = s.pc) ∨
    (t.status = .running ∧ ∃ i, decode s.wordAtPc = .ok i ∧ PcTarget (s.afterFetch s.wordAtPc) i t.pc) := by
  obtain ⟨hrun, ⟨-, rfl⟩ | ⟨-, rfl⟩ | ⟨-, u, hu, rfl⟩⟩ := step_cases h
  · exact .inl ⟨.pcUnderflow, by simp⟩
  · exact .inl ⟨.pcOverflow, by simp⟩
  · obtain ⟨i, hi, hx⟩ | ⟨e, -, hx⟩ := execWord_cases s.wordAtPc (s.afterFetch s.wordAtPc)
    · obtain ⟨u', hu', hout⟩ := exec_outcome (s.afterFetch s.wordAtPc) i
      cases hu'.symm.trans (hx.symm.trans hu)
      cases hout with
      | raised k => exact .inl ⟨k, by simp⟩
      | suspended => exact .inr (.inl (by simp [hrun]))
      | completed hstatus hpc => exact .inr (.inr ⟨by simpa [hrun] using hstatus, i, hi, by simpa using hpc⟩)
    · cases hx.symm.trans hu
      exact .inl ⟨.illegalInstruction, by simp⟩

/-- Settles O26: after `step_pc_cases` only the targets of a completed instruction are left, one by one. -/
theorem programCounterAfterAStep : Obligations.ProgramCounterAfterAStep := by
  unfold Obligations.ProgramCounterAfterAStep
  refine ⟨rfl, State.afterFetch_pc, fun s t k h hhalt => ?_, fun s t h hrun hwait => ?_⟩
  · obtain ⟨_, -, hpc⟩ | ⟨hrun, -⟩ | ⟨hrun, -⟩ := step_pc_cases h
    · exact hpc
    · simp [hrun] at hhalt
    · simp [hrun] at hhalt
  · obtain ⟨_, hhalt, -⟩ | ⟨-, hwait', -⟩ | ⟨-, i, hi, hpc⟩ := step_pc_cases h
    · simp [hrun] at hhalt
    · simp [hwait] at hwait'
    · generalize t.pc = pc at hpc ⊢
      cases hpc with
      | sequential => exact .inl rfl
      | skip hskip => exact .inr (.inl ⟨by simp [BitVec.add_assoc], i, hi, hskip⟩)
      | jp nnn => exact .inr (.inr (.inl ⟨nnn, .inl hi, toNat_zextAddr nnn⟩))
      | call nnn => exact .inr (.inr (.inl ⟨nnn, .inr hi, toNat_zextAddr nnn⟩))
      | jpV0 nnn => exact .inr (.inr (.inr (.inl ⟨nnn, hi, State.toNat_computedTarget _ nnn⟩)))
      | ret k hk => exact .inr (.inr (.inr (.inr ⟨hi, k, hk, rfl⟩)))

end Sys2Proof.Machine
end

section
/-! SUPPORT. What the control transfer instructions keep, and the statements about them (40_control_flow.md R100 to
R105). -/

namespace Sys2Proof.Machine

/-! ### What an error, a write of pc and a move of the stack keep -/

theorem keepsRegsBut_of_v_eq {s t : State} (h : t.v = s.v) (rs : List Reg) : keepsRegsBut rs s t := fun r _ => by
  simp [State.getV, h]

/-- Taking an error is what claims call an error taken (R232, R233). -/
theorem raised_raise (s : State) (k : ErrorKind) : raised k s (s.raise k) := by
  refine ⟨rfl, rfl, keepsRegsBut_of_v_eq rfl [], fun p hp => ?_⟩
  cases p with
  | status | pc => simp at hp
  | index | stack | display | debugLatch | waiting | mem | trace | inputs => simp [Part.same]

theorem setPc_keepsAllBut_pc (s : State) (w : Word) : keepsAllBut [.pc] s (s.setPc w) := fun p hp => by
  cases p with
  | pc => simp at hp
  | index | stack | display | status | debugLatch | waiting | mem | trace | inputs => simp [Part.same]

/-- A call and a return write sp, pc and the slots, and nothing else. -/
theorem moveStack_keepsAllBut_pc_stack (s : State) (stack : Vector Word 16) (sp : Fin 17) (pc : Word) :
    keepsAllBut [.pc, .stack] s { s with stack := stack, sp := sp, pc := pc } := fun p hp => by
  cases p with
  | pc | stack => simp at hp
  | index | display | status | debugLatch | waiting | mem | trace | inputs => simp [Part.same, State.pixel]

/-! ### Calls, returns and jumps -/

/-- Settles O19: `execRet_cases` leaves the empty stack and, for each number of live slots, the pop. -/
theorem returnPopsTheCallStack : Obligations.ReturnPopsTheCallStack := by
  unfold Obligations.ReturnPopsTheCallStack
  refine fun s => ⟨fun hempty => ?_, fun k hk => ?_⟩
  · obtain ⟨-, hx⟩ | ⟨j, hj, -⟩ := execRet_cases s
    · exact ⟨_, hx, raised_raise s _⟩
    · omega
  · obtain ⟨hempty, -⟩ | ⟨j, hj, hx⟩ := execRet_cases s
    · omega
    · obtain rfl : j = k := by omega
      exact ⟨_, hx, rfl, rfl, fun _ => rfl, keepsRegsBut_of_v_eq rfl [], moveStack_keepsAllBut_pc_stack s _ _ _⟩

/-- Settles O20: the two branches of `execJp`, whose test is the address of the instruction. -/
theorem jumpGoesToItsTargetOrHaltsOnItself : Obligations.JumpGoesToItsTargetOrHaltsOnItself := by
  unfold Obligations.JumpGoesToItsTargetOrHaltsOnItself
  refine fun nnn s => ⟨fun hself => ?_, fun hother => ?_⟩
  · exact ⟨_, if_pos hself, raised_raise s _⟩
  · exact ⟨_, if_neg hother, toNat_zextAddr nnn, keepsRegsBut_of_v_eq rfl [], setPc_keepsAllBut_pc s _⟩

/-- Settles O21: `execCall_cases` leaves the full stack and the push at slot sp. -/
theorem callPushesTheReturnAddress : Obligations.CallPushesTheReturnAddress := by
  unfold Obligations.CallPushesTheReturnAddress
  refine fun nnn s => ⟨fun hfull => ?_, fun k hk => ?_⟩
  · obtain ⟨-, hx⟩ | ⟨hroom, -⟩ := execCall_cases s nnn
    · exact ⟨_, hx, raised_raise s _⟩
    · omega
  · obtain ⟨hfull, -⟩ | ⟨hroom, hx⟩ := execCall_cases s nnn
    · omega
    · have hpushed : (s.stack.set s.sp.val s.pc hroom)[k] = s.pc := by simp [hk]
      have hother (j : Fin 16) (hj : j ≠ k) : (s.stack.set s.sp.val s.pc hroom)[j] = s.stack[j] :=
        Vector.getElem_set_ne hroom j.isLt (by omega)
      exact ⟨_, hx, hpushed, hother, congrArg (· + 1) hk, toNat_zextAddr nnn, keepsRegsBut_of_v_eq rfl [],
        moveStack_keepsAllBut_pc_stack s _ _ _⟩

/-- Settles O23: Bnnn only sets pc, to a sum that fits sixteen bits (`State.toNat_computedTarget`). -/
theorem computedJumpAddsV0 : Obligations.ComputedJumpAddsV0 := by
  unfold Obligations.ComputedJumpAddsV0
  exact fun nnn s => ⟨_, rfl, s.toNat_computedTarget nnn, keepsRegsBut_of_v_eq rfl [], setPc_keepsAllBut_pc s _⟩

/-! ### Skips -/

/-- A conditional skip only sets pc, past the next instruction where the condition holds (R104 to R107, R109). -/
theorem State.skipIf_spec (s : State) (c : Bool) :
    (s.skipIf c).pc = (if c then s.pc + 2 else s.pc) ∧ keepsRegsBut [] s (s.skipIf c) ∧
      keepsAllBut [.pc] s (s.skipIf c) := by
  rw [s.skipIf_eq c]
  exact ⟨rfl, keepsRegsBut_of_v_eq rfl [], setPc_keepsAllBut_pc s _⟩

/-- Settles O24: both instructions are a conditional skip (`State.skipIf_spec`), on the test and on its negation. -/
theorem immediateSkipsCompareVxWithByte : Obligations.ImmediateSkipsCompareVxWithByte := by
  unfold Obligations.ImmediateSkipsCompareVxWithByte
  refine fun x nn s => ⟨⟨_, rfl, ?_⟩, ⟨_, rfl, ?_⟩⟩
  · simpa using State.skipIf_spec s (s.getV x == nn)
  · simpa using State.skipIf_spec s (s.getV x != nn)

end Sys2Proof.Machine
end

section
/-! SUPPORT. What a write of one register keeps, the 8-bit sum, and the statements about the instructions that only write
V[x] (41_alu.md R130 to R132). -/

namespace Sys2Proof.Machine

/-! ### What a write of a register keeps -/

theorem setV_keepsRegsBut (s : State) (x : Reg) (b : Byte) : keepsRegsBut [x] s (s.setV x b) := fun r hr => by
  have hne : x ≠ r := fun h => hr (by simp [h])
  rw [State.getV_setV, if_neg hne]

theorem setV_keepsAllBut (s : State) (x : Reg) (b : Byte) : keepsAllBut [] s (s.setV x b) := fun p _ => by
  cases p with
  | index | pc | stack | display | status | debugLatch | waiting | mem | trace | inputs => simp [Part.same]

/-- Writing a register gives it the byte and changes nothing else. -/
theorem State.setV_spec (s : State) (x : Reg) (b : Byte) :
    (s.setV x b).getV x = b ∧ keepsRegsBut [x] s (s.setV x b) ∧ keepsAllBut [] s (s.setV x b) :=
  ⟨by rw [State.getV_setV, if_pos rfl], setV_keepsRegsBut s x b, setV_keepsAllBut s x b⟩

/-! ### The 8-bit sum -/

@[simp] theorem toNat_addResult (a b : Byte) : (addResult a b).toNat = (a.toNat + b.toNat) % 256 :=
  BitVec.toNat_ofNat _ 8

/-! ### The instructions that only write V[x] -/

/-- Settles O9: 6xnn is the write of nn to V[x] (`State.setV_spec`). -/
theorem loadImmediateSetsVx : Obligations.LoadImmediateSetsVx := by
  unfold Obligations.LoadImmediateSetsVx
  exact fun x nn s => ⟨_, rfl, s.setV_spec x nn⟩

/-- Settles O10: 7xnn is the write of the 8-bit sum to V[x] (`State.setV_spec`, `toNat_addResult`), with no write of the
flag after it. -/
theorem addImmediateWrapsWithoutFlag : Obligations.AddImmediateWrapsWithoutFlag := by
  unfold Obligations.AddImmediateWrapsWithoutFlag
  intro x nn s
  obtain ⟨hsum, hregs, hrest⟩ := s.setV_spec x (addResult (s.getV x) nn)
  exact ⟨_, rfl, by rw [hsum, toNat_addResult], hregs, hrest⟩

/-- Settles O11: 8xy0 is the write of V[y] to V[x] (`State.setV_spec`). -/
theorem copySetsVx : Obligations.CopySetsVx := by
  unfold Obligations.CopySetsVx
  exact fun x y s => ⟨_, rfl, s.setV_spec x (s.getV y)⟩

end Sys2Proof.Machine
end

section
/-! SUPPORT. What a write of I and a block write to memory keep, and the statements about Annn, Fx29 and Fx55
(42_index_memory.md R160, R162, R164). -/

namespace Sys2Proof.Machine

/-! ### Writes of I -/

/-- Writing I keeps every register and every other part. -/
theorem State.setIndex_spec (s : State) (w : Word) :
    keepsRegsBut [] s (s.setIndex w) ∧ keepsAllBut [.index] s (s.setIndex w) := by
  refine ⟨keepsRegsBut_of_v_eq rfl [], fun p hp => ?_⟩
  cases p with
  | index => simp at hp
  | pc | stack | display | status | debugLatch | waiting | mem | trace | inputs => simp [Part.same]

/-- Settles O28: Annn is the write of nnn to I (`State.setIndex_spec`). -/
theorem loadIndexSetsI : Obligations.LoadIndexSetsI := by
  unfold Obligations.LoadIndexSetsI
  exact fun nnn s => ⟨_, rfl, toNat_zextAddr nnn, s.setIndex_spec _⟩

/-- Settles O30: `execLdF_cases` leaves the error above 15 and, for each digit, the write of its glyph address to I. -/
theorem glyphAddressOrIllegalDigit : Obligations.GlyphAddressOrIllegalDigit := by
  unfold Obligations.GlyphAddressOrIllegalDigit
  refine fun x s => ⟨fun hdigit => ?_, fun habove => ?_⟩
  · obtain ⟨habove, -⟩ | ⟨d, hd, hx⟩ := execLdF_cases s x
    · omega
    · exact ⟨_, hx, by simp [hd], s.setIndex_spec _⟩
  · obtain ⟨-, hx⟩ | ⟨d, hd, -⟩ := execLdF_cases s x
    · exact ⟨_, hx, raised_raise s _⟩
    · omega

/-! ### Block writes to memory -/

section
variable {m : Memory} (h : m.wf = true) {a : Nat} {bs : List Byte} (ha : a + bs.length ≤ Config.memSize)
include h ha

/-- Inside the window of a block write, the k-th byte is read back. -/
theorem Memory.read_writeList_getElem {k : Nat} (hk : k < bs.length) :
    Memory.read (Memory.writeList m a bs) (a + k) = bs[k] := by
  simp [Memory.read_writeList h a bs ha, hk]

/-- Outside the window of a block write, memory reads as before. -/
theorem Memory.read_writeList_outside {b : Nat} (hb : b < a ∨ a + bs.length ≤ b) :
    Memory.read (Memory.writeList m a bs) b = Memory.read m b := by
  rw [Memory.read_writeList h a bs ha, dif_neg (by omega)]

end

/-! ### The store of registers -/

theorem setMemIndex_keepsAllBut_mem_index (s : State) (m : Memory) (w : Word) :
    keepsAllBut [.mem, .index] s { s with mem := m, index := w } := fun p hp => by
  cases p with
  | mem | index => simp at hp
  | pc | stack | display | status | debugLatch | waiting | trace | inputs => simp [Part.same, State.pixel]

/-- I advanced past a window that ends inside memory does not wrap (R164, R165). -/
theorem State.toNat_index_advance {s : State} {x : Reg} (h : s.index.toNat + x.val ≤ 4095) :
    (s.index + BitVec.ofNat 16 (x.val + 1)).toNat = s.index.toNat + x.val + 1 := by
  rw [BitVec.toNat_add, BitVec.toNat_ofNat]
  omega

/-- The bytes of V[0] to V[x] fit from I on where Fx55 passes its check. -/
theorem State.regsUpTo_fits {s : State} {x : Reg} (h : s.index.toNat + x.val ≤ 4095) :
    s.index.toNat + (s.regsUpTo x).length ≤ Config.memSize := by
  rw [State.length_regsUpTo, Config.memSize]
  omega

/-- The memory Fx55 leaves holds V[k] at I + k (R164). -/
theorem State.read_storedRegs {s : State} {x k : Reg} (hwf : s.mem.wf = true) (h : s.index.toNat + x.val ≤ 4095)
    (hk : k ≤ x) :
    Memory.read (Memory.writeList s.mem s.index.toNat (s.regsUpTo x)) (s.index.toNat + k.val) = s.getV k := by
  have hlt : k.val < (s.regsUpTo x).length := by
    rw [State.length_regsUpTo]
    exact Nat.lt_succ_of_le hk
  rw [Memory.read_writeList_getElem hwf (State.regsUpTo_fits h) hlt, State.getElem_regsUpTo]

/-- Settles O32: `execStoreRegs_cases` leaves the error and the block write of V[0] to V[x] at I, read inside its window
by `State.read_storedRegs` and outside by `Memory.read_writeList_outside`. -/
theorem storeRegistersAtI : Obligations.StoreRegistersAtI := by
  unfold Obligations.StoreRegistersAtI
  refine fun x s hwf => ⟨fun hfits => ?_, fun hover => ?_⟩
  · obtain ⟨hover, -⟩ | ⟨-, hx⟩ := execStoreRegs_cases s x
    · omega
    · have hwindow := State.regsUpTo_fits hfits
      have hkept (b : Nat) (hb : b < s.index.toNat ∨ s.index.toNat + (x.val + 1) ≤ b) :
          Memory.read (Memory.writeList s.mem s.index.toNat (s.regsUpTo x)) b = Memory.read s.mem b :=
        Memory.read_writeList_outside hwf hwindow (by rwa [State.length_regsUpTo])
      exact ⟨_, hx, fun _ hk => State.read_storedRegs hwf hfits hk, hkept, Memory.wf_writeList hwf _ _ hwindow,
        State.toNat_index_advance hfits, keepsRegsBut_of_v_eq rfl [], setMemIndex_keepsAllBut_mem_index s _ _⟩
  · obtain ⟨-, hx⟩ | ⟨hfits, -⟩ := execStoreRegs_cases s x
    · exact ⟨_, hx, raised_raise s _⟩
    · omega

end Sys2Proof.Machine
end

section
/-! SUPPORT. What a host operation without an answer keeps, and the statement about Fx15 and Fx18 (44_host_io.md R214,
R215). -/

namespace Sys2Proof.Machine

/-! ### The record of a host operation -/

theorem emit_keepsAllBut_trace (s : State) (e : HostEvent) : keepsAllBut [.trace] s (s.emit e) := fun p hp => by
  cases p with
  | trace => simp at hp
  | index | pc | stack | display | status | debugLatch | waiting | mem | inputs => simp [Part.same]

/-- Emitting a host event appends it to the trace and changes nothing else (R247). -/
theorem State.emit_spec (s : State) (e : HostEvent) :
    (s.emit e).trace = s.trace ++ [.host e] ∧ keepsRegsBut [] s (s.emit e) ∧ keepsAllBut [.trace] s (s.emit e) :=
  ⟨s.emit_trace e, keepsRegsBut_of_v_eq (s.emit_v e) [], emit_keepsAllBut_trace s e⟩

/-! ### Writes of the timers -/

/-- Settles O46: each of Fx15 and Fx18 is one host operation that carries V[x] (`State.emit_spec`). -/
theorem timerWritesPassVxToTheHost : Obligations.TimerWritesPassVxToTheHost := by
  unfold Obligations.TimerWritesPassVxToTheHost
  exact fun x s => ⟨⟨_, rfl, s.emit_spec (.setDelayTimer (s.getV x))⟩, ⟨_, rfl, s.emit_spec (.setSoundTimer (s.getV x))⟩⟩

end Sys2Proof.Machine
end

section
/-! SUPPORT. The decoder and the encoder as inverses of each other (30_encoding.md R70 to R81). -/

namespace Sys2Proof

/-! ### Decoding what was encoded -/

/-- The decoder reads every well-formed instruction back from its word: the per-instruction laws together. -/
theorem decode_encode (i : Instr) : Laws.RoundTrip.Statement i := by
  cases i with
  | cls => exact Laws.RoundTrip.cls
  | ret => exact Laws.RoundTrip.ret
  | jp nnn => exact Laws.RoundTrip.jp nnn
  | call nnn => exact Laws.RoundTrip.call nnn
  | seImm x nn => exact Laws.RoundTrip.seImm x nn
  | sneImm x nn => exact Laws.RoundTrip.sneImm x nn
  | seReg x y => exact Laws.RoundTrip.seReg x y
  | ldImm x nn => exact Laws.RoundTrip.ldImm x nn
  | addImm x nn => exact Laws.RoundTrip.addImm x nn
  | ldReg x y => exact Laws.RoundTrip.ldReg x y
  | orReg x y => exact Laws.RoundTrip.orReg x y
  | andReg x y => exact Laws.RoundTrip.andReg x y
  | xorReg x y => exact Laws.RoundTrip.xorReg x y
  | addReg x y => exact Laws.RoundTrip.addReg x y
  | subReg x y => exact Laws.RoundTrip.subReg x y
  | shrReg x y => exact Laws.RoundTrip.shrReg x y
  | subnReg x y => exact Laws.RoundTrip.subnReg x y
  | shlReg x y => exact Laws.RoundTrip.shlReg x y
  | sneReg x y => exact Laws.RoundTrip.sneReg x y
  | ldI nnn => exact Laws.RoundTrip.ldI nnn
  | jpV0 nnn => exact Laws.RoundTrip.jpV0 nnn
  | rnd x nn => exact Laws.RoundTrip.rnd x nn
  | drw x y n => exact Laws.RoundTrip.drw x y n
  | skp x => exact Laws.RoundTrip.skp x
  | sknp x => exact Laws.RoundTrip.sknp x
  | ldVxDT x => exact Laws.RoundTrip.ldVxDT x
  | ldVxK x => exact Laws.RoundTrip.ldVxK x
  | ldDTVx x => exact Laws.RoundTrip.ldDTVx x
  | ldSTVx x => exact Laws.RoundTrip.ldSTVx x
  | addI x => exact Laws.RoundTrip.addI x
  | ldF x => exact Laws.RoundTrip.ldF x
  | ldB x => exact Laws.RoundTrip.ldB x
  | storeRegs x => exact Laws.RoundTrip.storeRegs x
  | loadRegs x => exact Laws.RoundTrip.loadRegs x

/-- Reading bytes is decoding the word of the first two and leaving the rest. -/
theorem decodeBytes_cons_cons {hi lo : Byte} {rest rest' : List Byte} {i : Instr} :
    decodeBytes (hi :: lo :: rest) = .ok (i, rest') ↔ decode (wordOfBytes hi lo) = .ok i ∧ rest = rest' := by
  rw [decodeBytes]
  split <;> simp_all

/-- Settles O1: `decode_encode`, and the two bytes of a word put together again. -/
theorem decodeOfEncodeIsIdentity : Obligations.DecodeOfEncodeIsIdentity := by
  unfold Obligations.DecodeOfEncodeIsIdentity
  refine fun i hwf => ⟨decode_encode i hwf, fun rest => decodeBytes_cons_cons.2 ⟨?_, rfl⟩⟩
  rw [wordOfBytes_highByte_lowByte]
  exact decode_encode i hwf

/-! ### Encoding what was decoded -/

variable {op : Word} {a d : BitVec 4} {i : Instr}

/-- A word is the format NNN of its own fields. -/
theorem formatNNN_fields (h : opGroup op = a.toNat) : formatNNN a (fieldNNN op) = op := by
  apply BitVec.eq_of_toNat_eq
  rw [opGroup_eq] at h
  rw [toNat_formatNNN, toNat_fieldNNN]
  omega

/-- A word is the format XNN of its own fields. -/
theorem formatXNN_fields (h : opGroup op = a.toNat) : formatXNN a (fieldX op) (fieldNN op) = op := by
  apply BitVec.eq_of_toNat_eq
  rw [opGroup_eq] at h
  rw [toNat_formatXNN, toNat_fieldNN, val_fieldX]
  omega

/-- A word is the format XYN of its own fields. -/
theorem formatXYN_fields (h : opGroup op = a.toNat) (hd : fieldN op = d.toNat) :
    formatXYN a (fieldX op) (fieldY op) d = op := by
  apply BitVec.eq_of_toNat_eq
  rw [opGroup_eq] at h
  rw [fieldN_eq] at hd
  rw [toNat_formatXYN, val_fieldX, val_fieldY, ← hd]
  omega

/-- A word is the format XFN of its x and its sub-opcode. -/
theorem formatXNN_subopcode {nn : Byte} (h : opGroup op = a.toNat) (hnn : (fieldNN op).toNat = nn.toNat) :
    formatXNN a (fieldX op) nn = op :=
  BitVec.eq_of_toNat_eq hnn ▸ formatXNN_fields h

theorem encode_of_decodeGroup8 (hg : opGroup op = 8) (h : decodeGroup8 op = .ok i) :
    i.wellFormed = true ∧ encode i = op := by
  unfold decodeGroup8 at h
  split at h <;> cases h
  all_goals exact ⟨rfl, formatXYN_fields hg ‹_›⟩

theorem encode_of_decodeGroupE (hg : opGroup op = 14) (h : decodeGroupE op = .ok i) :
    i.wellFormed = true ∧ encode i = op := by
  unfold decodeGroupE at h
  split at h <;> cases h
  all_goals exact ⟨rfl, formatXNN_subopcode hg ‹_›⟩

theorem encode_of_decodeGroupF (hg : opGroup op = 15) (h : decodeGroupF op = .ok i) :
    i.wellFormed = true ∧ encode i = op := by
  unfold decodeGroupF at h
  split at h <;> cases h
  all_goals exact ⟨rfl, formatXNN_subopcode hg ‹_›⟩

theorem opGroup_lt (op : Word) : opGroup op < 16 := (op.extractLsb' 12 4).isLt

theorem fieldN_lt (op : Word) : fieldN op < 16 := (op.extractLsb' 0 4).isLt

/-- A word that decodes to an instruction is the word of that instruction. -/
theorem encode_of_decode (h : decode op = .ok i) : i.wellFormed = true ∧ encode i = op := by
  unfold decode at h
  split at h
  case h_1 =>
    split at h
    · next hop => cases h; exact ⟨rfl, hop.symm⟩
    · split at h
      · next hop => cases h; exact ⟨rfl, hop.symm⟩
      · cases h
  case h_6 hg | h_10 hg =>
    split at h <;> cases h
    exact ⟨rfl, formatXYN_fields hg ‹_›⟩
  case h_9 hg => exact encode_of_decodeGroup8 hg h
  case h_14 hg =>
    cases h
    refine ⟨decide_eq_true (fieldN_lt op), formatXYN_fields hg ?_⟩
    exact (Nat.mod_eq_of_lt (fieldN_lt op)).symm
  case h_15 hg => exact encode_of_decodeGroupE hg h
  case h_16 =>
    have hlt := opGroup_lt op
    have hg : opGroup op = 15 := by grind
    exact encode_of_decodeGroupF hg h
  case h_2 hg | h_3 hg | h_11 hg | h_12 hg => cases h; exact ⟨rfl, formatNNN_fields hg⟩
  case h_4 hg | h_5 hg | h_7 hg | h_8 hg | h_13 hg => cases h; exact ⟨rfl, formatXNN_fields hg⟩

/-- Settles O2: `encode_of_decode`. -/
theorem encodeOfDecodeIsIdentity : Obligations.EncodeOfDecodeIsIdentity := by
  unfold Obligations.EncodeOfDecodeIsIdentity
  exact fun op i => encode_of_decode

end Sys2Proof
end

section
/-! SUPPORT. The words the decoder refuses, and the rows of the opcode map as the decoder reads them (30_encoding.md
R78, R79). -/

namespace Sys2Proof

open Sys2Proof.Machine

variable {op : Word} {i : Instr}

/-! ### Words the decoder refuses (R79) -/

theorem decodeGroup8_error_iff :
    (∃ e, decodeGroup8 op = .error e) ↔ op.toNat % 16 ∈ [0x8, 0x9, 0xA, 0xB, 0xC, 0xD, 0xF] := by
  have hlt : op.toNat % 16 < 16 := Nat.mod_lt _ (by decide)
  unfold decodeGroup8
  rw [fieldN_eq]
  generalize op.toNat % 16 = d at hlt ⊢
  interval_cases d <;> simp

theorem decodeGroupE_error_iff : (∃ e, decodeGroupE op = .error e) ↔ op.toNat % 256 ∉ [0x9E, 0xA1] := by
  unfold decodeGroupE
  rw [toNat_fieldNN]
  split <;> simp_all

theorem decodeGroupF_error_iff :
    (∃ e, decodeGroupF op = .error e) ↔
      op.toNat % 256 ∉ [0x07, 0x0A, 0x15, 0x18, 0x1E, 0x29, 0x33, 0x55, 0x65] := by
  unfold decodeGroupF
  rw [toNat_fieldNN]
  split <;> simp_all

theorem ite_error_iff {p : Prop} [Decidable p] {e : DecodeError} :
    (∃ e', (if p then .ok i else .error e : Except DecodeError Instr) = .error e') ↔ ¬ p := by
  split <;> simp_all

/-- The decoder refuses exactly the words of the table of R79. -/
theorem decode_error_iff (op : Word) : (∃ e, decode op = .error e) ↔ IllegalWord op := by
  unfold decode
  rw [IllegalWord, ← opGroup_eq]
  split
  case h_1 hg =>
    by_cases hcls : op = 0x00E0#16
    · rw [hg]
      simp [hcls]
    · have hne : op.toNat ≠ 0x00E0 := fun h => hcls (BitVec.eq_of_toNat_eq h)
      simp [hg, hcls, hne, ite_error_iff, ← BitVec.toNat_inj]
  case h_9 hg => simp [hg, decodeGroup8_error_iff]
  case h_15 hg => simp [hg, decodeGroupE_error_iff]
  case h_16 =>
    have hlt := opGroup_lt op
    have hg : opGroup op = 15 := by grind
    simp [hg, decodeGroupF_error_iff]
  case h_6 hg | h_10 hg => simp [hg, ite_error_iff, fieldN_eq]
  case h_2 hg | h_3 hg | h_4 hg | h_5 hg | h_7 hg | h_8 hg | h_11 hg | h_12 hg | h_13 hg | h_14 hg => simp [hg]

/-! ### The rows of the opcode map (R78) -/

/-- No word is covered by two rows: any two rows differ on a bit both look at. -/
theorem opcodeRows_disjoint :
    ∀ r ∈ opcodeRows, ∀ q ∈ opcodeRows, r.pattern &&& q.mask = q.pattern &&& r.mask → r = q := by
  decide

theorem Machine.OpcodeRow.eq_of_covers {r q : OpcodeRow} (hr : r ∈ opcodeRows) (hq : q ∈ opcodeRows)
    (hrop : r.covers op = true) (hqop : q.covers op = true) : q = r := by
  refine opcodeRows_disjoint q hq r hr ?_
  rw [OpcodeRow.covers, beq_iff_eq] at hrop hqop
  rw [← hrop, ← hqop, BitVec.and_assoc, BitVec.and_assoc, BitVec.and_comm q.mask]

theorem formatNNN_and_maskF000 (a : BitVec 4) (nnn : Addr12) : formatNNN a nnn &&& 0xF000#16 = formatNNN a 0#12 := by
  apply BitVec.eq_of_toNat_eq
  have := nnn.isLt
  rw [toNat_and_maskF000, toNat_formatNNN, toNat_formatNNN, BitVec.toNat_zero]
  omega

theorem formatXNN_and_maskF000 (a : BitVec 4) (x : Reg) (nn : Byte) :
    formatXNN a x nn &&& 0xF000#16 = formatNNN a 0#12 := by
  apply BitVec.eq_of_toNat_eq
  have := nn.isLt
  rw [toNat_and_maskF000, toNat_formatXNN, toNat_formatNNN, BitVec.toNat_zero]
  omega

theorem formatXYN_and_maskF000 (a : BitVec 4) (x y : Reg) (d : BitVec 4) :
    formatXYN a x y d &&& 0xF000#16 = formatNNN a 0#12 := by
  apply BitVec.eq_of_toNat_eq
  have := d.isLt
  rw [toNat_and_maskF000, toNat_formatXYN, toNat_formatNNN, BitVec.toNat_zero]
  omega

theorem formatXYN_and_maskF00F (a : BitVec 4) (x y : Reg) (d : BitVec 4) :
    formatXYN a x y d &&& 0xF00F#16 = formatXYN a 0 0 d := by
  apply BitVec.eq_of_toNat_eq
  have := d.isLt
  rw [toNat_and_maskF00F, toNat_formatXYN, toNat_formatXYN, Fin.val_zero]
  omega

theorem formatXNN_and_maskF0FF (a : BitVec 4) (x : Reg) (nn : Byte) :
    formatXNN a x nn &&& 0xF0FF#16 = formatXNN a 0 nn := by
  apply BitVec.eq_of_toNat_eq
  have := nn.isLt
  rw [toNat_and_maskF0FF, toNat_formatXNN, toNat_formatXNN, Fin.val_zero]
  omega

/-- The row of an instruction: constructors and rows stand in the same order. -/
def rowOf (i : Instr) : OpcodeRow := opcodeRows[i.ctorIdx]'(by cases i <;> exact Nat.le_of_ble_eq_true rfl)

theorem rowOf_mem (i : Instr) : rowOf i ∈ opcodeRows := List.getElem_mem _

theorem mnemonic_rowOf (i : Instr) : (rowOf i).mnemonic = mnemonicOf i := by
  cases i <;> rfl

/-- The row of an instruction covers its word: masking clears the operand fields and leaves the pattern. -/
theorem rowOf_covers_encode (i : Instr) : (rowOf i).covers (encode i) = true := by
  rw [OpcodeRow.covers, beq_iff_eq]
  cases i with
  | cls | ret => rfl
  | jp nnn | call nnn | ldI nnn | jpV0 nnn => exact formatNNN_and_maskF000 _ nnn
  | seImm x nn | sneImm x nn | ldImm x nn | addImm x nn | rnd x nn => exact formatXNN_and_maskF000 _ x nn
  | drw x y n => exact formatXYN_and_maskF000 _ x y _
  | seReg x y | sneReg x y | ldReg x y | orReg x y | andReg x y | xorReg x y | addReg x y | subReg x y | shrReg x y
  | subnReg x y | shlReg x y => exact formatXYN_and_maskF00F _ x y _
  | skp x | sknp x | ldVxDT x | ldVxK x | ldDTVx x | ldSTVx x | addI x | ldF x | ldB x | storeRegs x | loadRegs x =>
    exact formatXNN_and_maskF0FF _ x _

/-- The four kinds of rows, by their masks, with the patterns of each. -/
theorem opcodeRow_kinds : ∀ r ∈ opcodeRows,
    (r.mask = 0xFFFF#16 ∧ r.pattern.toNat ∈ [0x00E0, 0x00EE]) ∨
    (r.mask = 0xF000#16 ∧ r.pattern.toNat / 4096 ∈ [1, 2, 3, 4, 6, 7, 0xA, 0xB, 0xC, 0xD]) ∨
    (r.mask = 0xF00F#16 ∧ r.pattern.toNat ∈
      [0x5000, 0x8000, 0x8001, 0x8002, 0x8003, 0x8004, 0x8005, 0x8006, 0x8007, 0x800E, 0x9000]) ∨
    (r.mask = 0xF0FF#16 ∧ r.pattern.toNat ∈
      [0xE09E, 0xE0A1, 0xF007, 0xF00A, 0xF015, 0xF018, 0xF01E, 0xF029, 0xF033, 0xF055, 0xF065]) := by
  decide

/-- No row covers an illegal word. -/
theorem not_illegalWord_of_covers {r : OpcodeRow} (hr : r ∈ opcodeRows) (h : r.covers op = true) :
    ¬ IllegalWord op := by
  rw [OpcodeRow.covers, beq_iff_eq, ← BitVec.toNat_inj] at h
  obtain ⟨hm, hp⟩ | ⟨hm, hp⟩ | ⟨hm, hp⟩ | ⟨hm, hp⟩ := opcodeRow_kinds r hr
  case' inl => have hmask : (op &&& r.mask).toNat = op.toNat := by rw [hm]; exact congrArg _ BitVec.and_allOnes
  case' inr.inl => have hmask := hm ▸ toNat_and_maskF000 op
  case' inr.inr.inl => have hmask := hm ▸ toNat_and_maskF00F op
  case' inr.inr.inr => have hmask := hm ▸ toNat_and_maskF0FF op
  all_goals
    rw [← h, hmask] at hp
    simp only [IllegalWord, List.mem_cons, List.not_mem_nil, or_false] at hp ⊢
    omega

/-- Settles O3: a decoded word is covered by the row of its instruction, the only one by `OpcodeRow.eq_of_covers`; a
refused word is illegal, so no row covers it. -/
theorem eachWordHasOneRowOrIsIllegal : Obligations.EachWordHasOneRowOrIsIllegal := by
  unfold Obligations.EachWordHasOneRowOrIsIllegal
  intro op
  cases hdec : decode op with
  | ok i =>
    have hcovers : (rowOf i).covers op = true := (encode_of_decode hdec).2 ▸ rowOf_covers_encode i
    exact .inl ⟨rowOf i, rowOf_mem i, hcovers, fun q hq hqop => (rowOf i).eq_of_covers (rowOf_mem i) hq hcovers hqop,
      i, rfl, (mnemonic_rowOf i).symm⟩
  | error e =>
    have hillegal := (decode_error_iff op).1 ⟨e, hdec⟩
    exact .inr ⟨fun r hr => Bool.eq_false_iff.2 fun h => not_illegalWord_of_covers hr h hillegal, e, rfl⟩

/-- Settles O5: each word is evaluated. -/
theorem sampleWordsDecode : Obligations.SampleWordsDecode := by
  unfold Obligations.SampleWordsDecode
  decide

end Sys2Proof
end

section
/-! SUPPORT. How frames combine, and the statements about the instructions that write V[x] and the flag (41_alu.md
R133 to R140). -/

namespace Sys2Proof.Machine

/-! ### Frames of two updates in a row -/

theorem Part.same_trans {s t u : State} {p : Part} (h1 : Part.same s t p) (h2 : Part.same t u p) : Part.same s u p := by
  cases p with
  | index | pc | status | waiting | trace | inputs => exact h2.trans h1
  | stack => exact ⟨h2.1.trans h1.1, fun k => (h2.2 k).trans (h1.2 k)⟩
  | display => exact fun x y => (h2 x y).trans (h1 x y)
  | debugLatch => exact ⟨h2.1.trans h1.1, h2.2.trans h1.2⟩
  | mem => exact fun a => (h2 a).trans (h1 a)

theorem keepsAllBut.mono {s t : State} {ps qs : List Part} (h : keepsAllBut ps s t) (hps : ps ⊆ qs := by simp) :
    keepsAllBut qs s t := fun p hp => h p fun hmem => hp (hps hmem)

theorem keepsAllBut.trans {s t u : State} {ps qs rs : List Part} (h1 : keepsAllBut ps s t) (h2 : keepsAllBut qs t u)
    (hps : ps ⊆ rs := by simp) (hqs : qs ⊆ rs := by simp) : keepsAllBut rs s u := fun p hp =>
  Part.same_trans (h1 p fun h => hp (hps h)) (h2 p fun h => hp (hqs h))

theorem keepsRegsBut.trans {s t u : State} {ps qs rs : List Reg} (h1 : keepsRegsBut ps s t) (h2 : keepsRegsBut qs t u)
    (hps : ps ⊆ rs := by simp) (hqs : qs ⊆ rs := by simp) : keepsRegsBut rs s u := fun r hr =>
  (h2 r fun h => hr (hqs h)).trans (h1 r fun h => hr (hps h))

/-! ### A result and a flag -/

/-- The flag register written. -/
theorem State.setFlag_spec (s : State) (f : Byte) :
    (s.setFlag f).getV 15 = f ∧ keepsRegsBut [15] s (s.setFlag f) ∧ keepsAllBut [] s (s.setFlag f) :=
  s.setV_spec 15 f

theorem State.setV_setFlag_frame (s : State) (x : Reg) (b f : Byte) :
    keepsRegsBut [x, 15] s ((s.setV x b).setFlag f) ∧ keepsAllBut [] s ((s.setV x b).setFlag f) :=
  ⟨(setV_keepsRegsBut s x b).trans (setV_keepsRegsBut (s.setV x b) 15 f),
    (setV_keepsAllBut s x b).trans (setV_keepsAllBut (s.setV x b) 15 f)⟩

theorem State.setFlag_setV_frame (s : State) (x : Reg) (b f : Byte) :
    keepsRegsBut [x, 15] s ((s.setFlag f).setV x b) ∧ keepsAllBut [] s ((s.setFlag f).setV x b) :=
  ⟨(setV_keepsRegsBut s 15 f).trans (setV_keepsRegsBut (s.setFlag f) x b),
    (setV_keepsAllBut s 15 f).trans (setV_keepsAllBut (s.setFlag f) x b)⟩

/-- The result written first, the flag last: where x = 15 the flag stays (R142). -/
theorem State.setV_setFlag_spec (s : State) (x : Reg) (b f : Byte) :
    (x ≠ 15 → ((s.setV x b).setFlag f).getV x = b) ∧ ((s.setV x b).setFlag f).getV 15 = f ∧
      keepsRegsBut [x, 15] s ((s.setV x b).setFlag f) ∧ keepsAllBut [] s ((s.setV x b).setFlag f) := by
  obtain ⟨hx, -, -⟩ := s.setV_spec x b
  obtain ⟨hf, hregs, -⟩ := (s.setV x b).setFlag_spec f
  exact ⟨fun hne => (hregs x (by simpa using hne)).trans hx, hf, s.setV_setFlag_frame x b f⟩

/-- The flag written first, the result last: where x = 15 the result stays (R138, R140). -/
theorem State.setFlag_setV_spec (s : State) (x : Reg) (b f : Byte) :
    ((s.setFlag f).setV x b).getV x = b ∧ (x ≠ 15 → ((s.setFlag f).setV x b).getV 15 = f) ∧
      keepsRegsBut [x, 15] s ((s.setFlag f).setV x b) ∧ keepsAllBut [] s ((s.setFlag f).setV x b) := by
  obtain ⟨hf, -, -⟩ := s.setFlag_spec f
  obtain ⟨hx, hregs, -⟩ := (s.setFlag f).setV_spec x b
  exact ⟨hx, fun hne => (hregs 15 (by simpa using hne.symm)).trans hf, s.setFlag_setV_frame x b f⟩

/-! ### Results and flags as numbers -/

@[simp] theorem toNat_flagByte (b : Bool) : (flagByte b).toNat = b.toNat := by
  cases b <;> rfl

@[simp] theorem toNat_addCarry (a b : Byte) : (addCarry a b).toNat = if 255 < a.toNat + b.toNat then 1 else 0 := by
  simp [addCarry, Bool.toNat, Bool.cond_decide]

@[simp] theorem toNat_subNoBorrow (a b : Byte) : (subNoBorrow a b).toNat = if b.toNat ≤ a.toNat then 1 else 0 := by
  simp [subNoBorrow, Bool.toNat, Bool.cond_decide]

@[simp] theorem toNat_subResult (a b : Byte) : (subResult a b).toNat = (a.toNat + 256 - b.toNat) % 256 := by
  have := b.isLt
  rw [subResult, BitVec.toNat_ofInt]
  omega

@[simp] theorem toNat_shrResult (b : Byte) : (shrResult b).toNat = b.toNat / 2 := by
  have := b.isLt
  rw [shrResult, BitVec.toNat_ofNat]
  omega

@[simp] theorem toNat_shlResult (b : Byte) : (shlResult b).toNat = b.toNat * 2 % 256 := BitVec.toNat_ofNat _ 8

@[simp] theorem toNat_shrFlag (b : Byte) : (shrFlag b).toNat = b.toNat % 2 := by
  simp only [shrFlag, toNat_flagByte, BitVec.getLsbD, Nat.toNat_testBit]
  omega

@[simp] theorem toNat_shlFlag (b : Byte) : (shlFlag b).toNat = b.toNat / 128 := by
  have := b.isLt
  simp only [shlFlag, toNat_flagByte, BitVec.getLsbD, Nat.toNat_testBit]
  omega

/-! ### The instructions that write V[x] and the flag -/

/-- Settles O12: all three are a result and then the flag 0 (`State.setV_setFlag_spec`). -/
theorem logicClearsTheFlag : Obligations.LogicClearsTheFlag := by
  unfold Obligations.LogicClearsTheFlag
  exact fun x y s => ⟨⟨_, rfl, s.setV_setFlag_spec x _ 0⟩, ⟨_, rfl, s.setV_setFlag_spec x _ 0⟩,
    ⟨_, rfl, s.setV_setFlag_spec x _ 0⟩⟩

/-- Settles O13: 8xy4 is the sum and then the carry (`State.setV_setFlag_spec`), both from the prior operands. -/
theorem addSetsCarry : Obligations.AddSetsCarry := by
  unfold Obligations.AddSetsCarry
  intro x y s
  obtain ⟨hresult, hflag, hframe⟩ :=
    s.setV_setFlag_spec x (addResult (s.getV x) (s.getV y)) (addCarry (s.getV x) (s.getV y))
  exact ⟨_, rfl, fun hx => by rw [hresult hx, toNat_addResult], by rw [hflag, toNat_addCarry], hframe⟩

/-- A subtraction a minus b into V[x], as both instructions perform it (R137, R139). -/
theorem State.sub_spec (s : State) (x : Reg) (a b : Byte) :
    ∃ t, s.resultThenFlag x (subResult a b) (subNoBorrow a b) = .next t ∧
      (x ≠ 15 → (t.getV x).toNat = (a.toNat + 256 - b.toNat) % 256) ∧
      (t.getV 15).toNat = (if b.toNat ≤ a.toNat then 1 else 0) ∧ keepsRegsBut [x, 15] s t ∧ keepsAllBut [] s t := by
  obtain ⟨hresult, hflag, hframe⟩ := s.setV_setFlag_spec x (subResult a b) (subNoBorrow a b)
  exact ⟨_, rfl, fun hx => by rw [hresult hx, toNat_subResult], by rw [hflag, toNat_subNoBorrow], hframe⟩

/-- Settles O14: one subtraction (`State.sub_spec`) with its operands in either order. -/
theorem subtractionsSetNoBorrow : Obligations.SubtractionsSetNoBorrow := by
  unfold Obligations.SubtractionsSetNoBorrow
  exact fun x y s => ⟨s.sub_spec x (s.getV x) (s.getV y), s.sub_spec x (s.getV y) (s.getV x)⟩

/-- Settles O15: 8xy6 is the flag and then the half of V[y] as it is then (`State.setFlag_setV_spec`); for y = 15
that is the half of a flag. -/
theorem shiftRightTakesItsSourceFromVy : Obligations.ShiftRightTakesItsSourceFromVy := by
  unfold Obligations.ShiftRightTakesItsSourceFromVy
  intro x y s
  obtain ⟨hflagged, hkept, -⟩ := s.setFlag_spec (shrFlag (s.getV y))
  obtain ⟨hresult, hflag, hframe⟩ :=
    s.setFlag_setV_spec x (shrResult ((s.setFlag (shrFlag (s.getV y))).getV y)) (shrFlag (s.getV y))
  refine ⟨_, rfl, fun hy => ?_, fun hy => ?_, fun hx => by rw [hflag hx, toNat_shrFlag], hframe⟩
  · rw [hresult, toNat_shrResult, hkept y (by simpa using hy)]
  · subst hy
    rw [hresult, hflagged]
    apply BitVec.eq_of_toNat_eq
    rw [toNat_shrResult, toNat_shrFlag]
    exact Nat.div_eq_of_lt (Nat.mod_lt _ (by decide))

/-- Settles O16: 8xyE is the flag and then the double of V[y] as it is then (`State.setFlag_setV_spec`); for y = 15
that is the double of a flag. -/
theorem shiftLeftTakesItsSourceFromVy : Obligations.ShiftLeftTakesItsSourceFromVy := by
  unfold Obligations.ShiftLeftTakesItsSourceFromVy
  intro x y s
  obtain ⟨hflagged, hkept, -⟩ := s.setFlag_spec (shlFlag (s.getV y))
  obtain ⟨hresult, hflag, hframe⟩ :=
    s.setFlag_setV_spec x (shlResult ((s.setFlag (shlFlag (s.getV y))).getV y)) (shlFlag (s.getV y))
  refine ⟨_, rfl, fun hy => ?_, fun hy => ?_, fun hx => by rw [hflag hx, toNat_shlFlag], hframe⟩
  · rw [hresult, toNat_shlResult, hkept y (by simpa using hy)]
  · subst hy
    have := (s.getV 15).isLt
    rw [hresult, hflagged, toNat_shlResult, toNat_shlFlag]
    omega

end Sys2Proof.Machine
end

section
/-! SUPPORT. What an answer of the environment changes, and the statements about the instructions that take one
(41_alu.md R141, 44_host_io.md R210 to R213). -/

namespace Sys2Proof.Machine

/-! ### Random bytes and the host's answers -/

theorem setInputs_keepsAllBut_inputs (s : State) (i : HostInputs) : keepsAllBut [.inputs] s { s with inputs := i } :=
  fun p hp => by
    cases p with
    | inputs => simp at hp
    | index | pc | stack | display | status | debugLatch | waiting | mem | trace => simp [Part.same, State.pixel]

/-- An answered host operation records its event and consumes the answer, and keeps the rest. -/
theorem setTraceInputs_keepsAllBut_trace_inputs (s : State) (es : List TraceEntry) (i : HostInputs) :
    keepsAllBut [.trace, .inputs] s { s with trace := es, inputs := i } := fun p hp => by
  cases p with
  | trace | inputs => simp at hp
  | index | pc | stack | display | status | debugLatch | waiting | mem => simp [Part.same, State.pixel]

theorem State.takeRandom_setV_frame (s : State) (x : Reg) (b : Byte) :
    keepsRegsBut [x] s (s.takeRandom.setV x b) ∧ keepsAllBut [.inputs] s (s.takeRandom.setV x b) :=
  ⟨setV_keepsRegsBut s.takeRandom x b,
    (setInputs_keepsAllBut_inputs s _).trans (setV_keepsAllBut s.takeRandom x b)⟩

/-- An answered host operation whose answer goes to V[x]. -/
theorem State.answer_setV_frame (s : State) (es : List TraceEntry) (inputs : HostInputs) (x : Reg) (b : Byte) :
    keepsRegsBut [x] s (State.setV { s with trace := es, inputs := inputs } x b) ∧
      keepsAllBut [.trace, .inputs] s (State.setV { s with trace := es, inputs := inputs } x b) :=
  ⟨setV_keepsRegsBut { s with trace := es, inputs := inputs } x b,
    (setTraceInputs_keepsAllBut_trace_inputs s es inputs).trans (setV_keepsAllBut _ x b)⟩

/-- Settles O17: Cxnn takes a byte of the random input and writes V[x] (`State.takeRandom_setV_frame`). -/
theorem randomIsMaskedAndConsumed : Obligations.RandomIsMaskedAndConsumed := by
  unfold Obligations.RandomIsMaskedAndConsumed
  intro x nn s
  obtain ⟨hx, -, -⟩ := s.takeRandom.setV_spec x (s.randomByte &&& nn)
  refine ⟨_, rfl, hx, fun r rest hr => ⟨?_, ?_⟩, rfl, s.takeRandom_setV_frame x _⟩
  · rw [hx, State.randomByte, hr, List.headD_cons]
  · simp [hr]

/-- Settles O45: Fx07 is one host operation whose answer goes to V[x] (`State.answer_setV_frame`). -/
theorem delayTimerIsReadFromTheHost : Obligations.DelayTimerIsReadFromTheHost := by
  unfold Obligations.DelayTimerIsReadFromTheHost
  intro x s
  obtain ⟨hx, -, -⟩ := s.callGetDelay.setV_spec x s.delayAnswer
  refine ⟨_, rfl, hx, fun b rest hb => ?_, rfl, rfl, s.answer_setV_frame _ _ x _⟩
  rw [hx, State.delayAnswer, hb, List.headD_cons]

/-- Settles O47: with a key supplied, Fx0A is one host operation whose answer goes to V[x]
(`State.answer_setV_frame`). -/
theorem keyWaitWritesTheSuppliedKey : Obligations.KeyWaitWritesTheSuppliedKey := by
  unfold Obligations.KeyWaitWritesTheSuppliedKey
  intro x k rest s hsupplied
  obtain ⟨hnone, -⟩ | ⟨k', rest', hsupplied', hexec⟩ := execLdVxK_cases s x
  · simp [hnone] at hsupplied
  · obtain ⟨rfl, rfl⟩ : k' = k ∧ rest' = rest := by simpa [hsupplied'] using hsupplied
    obtain ⟨hx, -, -⟩ := (s.answerAwaitKey k').setV_spec x (keyByte k')
    exact ⟨_, hexec, by rw [hx, toNat_keyByte], rfl, by simp [hsupplied'], s.answer_setV_frame _ _ x _⟩

/-- A check_key call followed by a skip on some condition (R210, R211). -/
theorem State.callCheckKey_skipIf_spec (s : State) (k : Key) (c : Bool) :
    ((s.callCheckKey k).skipIf c).pc = (if c then s.pc + 2 else s.pc) ∧
      ((s.callCheckKey k).skipIf c).trace = s.trace ++ [.host (.checkKey k (s.keyAnswer k))] ∧
      ((s.callCheckKey k).skipIf c).inputs =
        { s.inputs with keyDown := s.inputs.keyDown.tail, draws := s.inputs.draws + 1 } ∧
      keepsRegsBut [] s ((s.callCheckKey k).skipIf c) ∧
      keepsAllBut [.pc, .trace, .inputs] s ((s.callCheckKey k).skipIf c) := by
  obtain ⟨hpc, hregs, hrest⟩ := (s.callCheckKey k).skipIf_spec c
  have hcall : keepsAllBut [.trace, .inputs] s (s.callCheckKey k) := setTraceInputs_keepsAllBut_trace_inputs s _ _
  exact ⟨hpc, hrest .trace (by simp), hrest .inputs (by simp), hregs, hcall.trans hrest⟩

/-- Settles O44: for a key both are a check_key call and a skip (`State.callCheckKey_skipIf_spec`), else both raise
BadKey. -/
theorem keySkipsFollowTheHostsAnswer : Obligations.KeySkipsFollowTheHostsAnswer := by
  unfold Obligations.KeySkipsFollowTheHostsAnswer
  refine fun x s => ⟨fun k hk => ⟨?_, ?_, fun b rest hb => ?_⟩, fun habove => ⟨?_, ?_⟩⟩
  · obtain ⟨habove, -⟩ | ⟨k', hk', hexec⟩ := execSkp_cases s x
    · omega
    · obtain rfl : k' = k := Fin.ext (hk'.symm.trans hk)
      exact ⟨_, hexec, s.callCheckKey_skipIf_spec k' _⟩
  · obtain ⟨habove, -⟩ | ⟨k', hk', hexec⟩ := execSknp_cases s x
    · omega
    · obtain rfl : k' = k := Fin.ext (hk'.symm.trans hk)
      obtain ⟨hpc, hrest⟩ := s.callCheckKey_skipIf_spec k' (!s.keyAnswer k')
      exact ⟨_, hexec, hpc.trans (by cases s.keyAnswer k' <;> rfl), hrest⟩
  · rw [State.keyAnswer, hb, List.headD_cons]
  · obtain ⟨-, hexec⟩ | ⟨k', hk', -⟩ := execSkp_cases s x
    · exact ⟨_, hexec, raised_raise s _⟩
    · omega
  · obtain ⟨-, hexec⟩ | ⟨k', hk', -⟩ := execSknp_cases s x
    · exact ⟨_, hexec, raised_raise s _⟩
    · omega

end Sys2Proof.Machine
end

section
/-! SUPPORT. The statements about the register skips, Fx1E and 00E0 (40_control_flow.md R106, R107, 42_index_memory.md
R161, 43_display.md R190). -/

namespace Sys2Proof.Machine


/-- Settles O25: both instructions are a conditional skip (`State.skipIf_spec`), on the test and on its negation. -/
theorem registerSkipsCompareVxWithVy : Obligations.RegisterSkipsCompareVxWithVy := by
  unfold Obligations.RegisterSkipsCompareVxWithVy
  refine fun x y s => ⟨⟨_, rfl, ?_⟩, ⟨_, rfl, ?_⟩⟩
  · simpa using State.skipIf_spec s (s.getV x == s.getV y)
  · simpa using State.skipIf_spec s (s.getV x != s.getV y)

/-- Settles O29: Fx1E is the write of the 16-bit sum to I (`State.setIndex_spec`). -/
theorem addIndexWrapsWithoutFlag : Obligations.AddIndexWrapsWithoutFlag := by
  unfold Obligations.AddIndexWrapsWithoutFlag
  refine fun x s => ⟨_, rfl, ?_, s.setIndex_spec _⟩
  rw [State.setIndex_index, BitVec.toNat_add, toNat_zextByte]

theorem clearDisplay_keepsAllBut_display (s : State) : keepsAllBut [.display] s s.clearDisplay := fun p hp => by
  cases p with
  | display => simp at hp
  | index | pc | stack | status | debugLatch | waiting | mem | trace | inputs => simp [Part.same]

theorem State.clearDisplay_emit_frame (s : State) (e : HostEvent) :
    keepsRegsBut [] s (s.clearDisplay.emit e) ∧ keepsAllBut [.display, .trace] s (s.clearDisplay.emit e) :=
  ⟨keepsRegsBut_of_v_eq rfl [], (clearDisplay_keepsAllBut_display s).trans (s.clearDisplay.emit_spec e).2.2⟩

/-- Settles O38: 00E0 is the cleared buffer and then one host operation (`State.clearDisplay_emit_frame`). -/
theorem clearScreenClearsEveryPixel : Obligations.ClearScreenClearsEveryPixel := by
  unfold Obligations.ClearScreenClearsEveryPixel
  exact fun s => ⟨_, rfl, s.pixel_clearDisplay, s.clearDisplay.emit_trace .clear, s.clearDisplay_emit_frame .clear⟩

end Sys2Proof.Machine
end

section
/-! SUPPORT. The statements about Fx33, Fx65, the round trip of Fx55 and Fx65, and code stored by Fx55
(42_index_memory.md R163, R165; 20_memory.md R62). -/

namespace Sys2Proof.Machine

/-! ### The store of the three digits -/

theorem setMem_keepsAllBut_mem (s : State) (m : Memory) : keepsAllBut [.mem] s { s with mem := m } := fun p hp => by
  cases p with
  | mem => simp at hp
  | index | pc | stack | display | status | debugLatch | waiting | trace | inputs => simp [Part.same, State.pixel]

/-- The three digits as numbers (R163). -/
theorem toNat_bcdDigits (b : Byte) :
    (bcdDigits b).map BitVec.toNat = [b.toNat / 100, b.toNat / 10 % 10, b.toNat % 10] := by
  have := b.isLt
  simp only [bcdDigits, List.map_cons, List.map_nil, BitVec.toNat_ofNat, List.cons.injEq, and_true]
  omega

/-- The three digits fit from I on where Fx33 passes its check. -/
theorem bcdDigits_fits {s : State} (h : s.index.toNat ≤ 4093) (b : Byte) :
    s.index.toNat + (bcdDigits b).length ≤ Config.memSize := by
  simp only [bcdDigits, List.length_cons, List.length_nil, Config.memSize]
  omega

/-- Settles O31: `execLdB_cases` leaves the error and the block write of the three digits at I. -/
theorem bcdStoresThreeDigitsAtI : Obligations.BcdStoresThreeDigitsAtI := by
  unfold Obligations.BcdStoresThreeDigitsAtI
  refine fun x s hwf => ⟨fun hfits => ?_, fun hover => ?_⟩
  · obtain ⟨hover, -⟩ | ⟨-, hexec⟩ := execLdB_cases s x
    · omega
    · have hlen : (bcdDigits (s.getV x)).length = 3 := rfl
      have hwindow := bcdDigits_fits hfits (s.getV x)
      have hdigit (k : Nat) (hk : k < 3) := Memory.read_writeList_getElem hwf hwindow (hlen.symm ▸ hk)
      have hdigits := toNat_bcdDigits (s.getV x)
      simp only [bcdDigits, List.map_cons, List.map_nil, List.cons.injEq, and_true] at hdigits
      obtain ⟨h0, h1, h2⟩ := hdigits
      have hkept (b : Nat) (hb : b < s.index.toNat ∨ s.index.toNat + 3 ≤ b) :=
        Memory.read_writeList_outside hwf hwindow hb
      exact ⟨_, hexec, (congrArg _ (hdigit 0 (by decide))).trans h0, (congrArg _ (hdigit 1 (by decide))).trans h1,
        (congrArg _ (hdigit 2 (by decide))).trans h2, hkept, Memory.wf_writeList hwf _ _ hwindow,
        keepsRegsBut_of_v_eq rfl [], setMem_keepsAllBut_mem s _⟩
  · obtain ⟨-, hexec⟩ | ⟨hfits, -⟩ := execLdB_cases s x
    · exact ⟨_, hexec, raised_raise s _⟩
    · omega

/-! ### The load of registers -/

theorem setVIndex_keepsAllBut_index (s : State) (v : Vector Byte 16) (w : Word) :
    keepsAllBut [.index] s { s with v := v, index := w } := fun p hp => by
  cases p with
  | index => simp at hp
  | pc | stack | display | status | debugLatch | waiting | mem | trace | inputs => simp [Part.same, State.pixel]

/-- The registers Fx65 leaves: the bytes from I on in V[0] to V[x], the others as before (R165). -/
theorem State.getV_loadedRegs (s : State) (a : Nat) (x k : Reg) :
    (State.setVs 0 ((List.range (x.val + 1)).map fun j => Memory.read s.mem (a + j)) s).getV k =
      if k ≤ x then Memory.read s.mem (a + k.val) else s.getV k := by
  rw [State.getV_setVs]
  by_cases hk : k.val ≤ x.val
  · simp [Fin.le_def, hk, Nat.lt_succ_of_le hk]
  · simp [Fin.le_def, hk]

/-- Settles O33: `execLoadRegs_cases` leaves the error and the bulk write of V[0] to V[x] (`State.getV_loadedRegs`).
-/
theorem loadRegistersFromI : Obligations.LoadRegistersFromI := by
  unfold Obligations.LoadRegistersFromI
  refine fun x s => ⟨fun hfits => ?_, fun hover => ?_⟩
  · obtain ⟨hover, -⟩ | ⟨-, hexec⟩ := execLoadRegs_cases s x
    · omega
    · exact ⟨_, hexec, fun k hk => (s.getV_loadedRegs _ x k).trans (if_pos hk),
        fun k hk => (s.getV_loadedRegs _ x k).trans (if_neg (not_le.2 hk)), State.toNat_index_advance hfits,
        setVIndex_keepsAllBut_index s _ _⟩
  · obtain ⟨-, hexec⟩ | ⟨hfits, -⟩ := execLoadRegs_cases s x
    · exact ⟨_, hexec, raised_raise s _⟩
    · omega

/-! ### After a store of registers -/

/-- Where Fx55 passes its check, the memory it leaves holds V[0] to V[x] from I on (R164). -/
theorem read_mem_of_storeRegs {s t : State} {x k : Reg} (hwf : s.mem.wf = true) (hfits : s.index.toNat + x.val ≤ 4095)
    (hstore : exec (.storeRegs x) s = .next t) (hk : k ≤ x) : Memory.read t.mem (s.index.toNat + k.val) = s.getV k := by
  obtain ⟨hover, -⟩ | ⟨-, hexec⟩ := execStoreRegs_cases s x
  · omega
  · cases hexec.symm.trans hstore
    exact State.read_storedRegs hwf hfits hk

/-- Settles O34: the load at the same I reads the bytes the store left (`read_mem_of_storeRegs`). -/
theorem storeThenLoadRestoresRegisters : Obligations.StoreThenLoadRestoresRegisters := by
  unfold Obligations.StoreThenLoadRestoresRegisters
  intro x s t u hwf hfits hstore hmem hindex
  obtain ⟨w, hexec, hloaded, -, hadvanced, -⟩ := (loadRegistersFromI x u).1 (hindex.symm ▸ hfits)
  refine ⟨w, hexec, fun k hk => ?_, by rw [hadvanced, hindex]⟩
  rw [hloaded k hk, hmem, hindex, read_mem_of_storeRegs hwf hfits hstore hk]

/-- Settles O36: the fetch reads the two bytes at its pc, which are the stored V[0] and V[1]
(`read_mem_of_storeRegs`). -/
theorem storedBytesAreFetched : Obligations.StoredBytesAreFetched := by
  unfold Obligations.StoredBytesAreFetched
  intro x s t u hwf hfits hx hstore hmem hpc
  have hhi : Memory.read t.mem s.index.toNat = s.getV 0 := read_mem_of_storeRegs hwf hfits hstore (Fin.zero_le x)
  have hlo : Memory.read t.mem (s.index.toNat + 1) = s.getV 1 :=
    read_mem_of_storeRegs hwf hfits hstore (k := 1) (Fin.le_def.2 hx)
  have hfetch : u.pc.toNat < Config.fetchLimit := by
    rw [hpc, Config.fetchLimit]
    omega
  rw [State.fetchOp_eq u hfetch, State.wordAtPc, hmem, hpc, hhi, hlo]

end Sys2Proof.Machine
end

section
/-! SUPPORT. What a draw does, as the flips of the positions it covers, and the statements about Dxyn (43_display.md
R191 to R194). -/

namespace Sys2Proof.Machine

/-! ### The positions of a draw -/

/-- The rows of the sprite at I. -/
def spriteRows (s : State) (n : Nat) : List Byte :=
  (List.range n).map fun k => Memory.read s.mem (s.index.toNat + k)

/-- The positions Dxyn flips, in drawing order. -/
def drawPositions (s : State) (x y : Reg) (n : Nat) : List Position :=
  spritePositions (drawColumn s x) (drawRow s y) (spriteRows s n)

theorem nodup_drawPositions (s : State) (x y : Reg) (n : Nat) : (drawPositions s x y n).Nodup :=
  nodup_spritePositions _ _ _

/-- Where Dxyn passes its check, it clears V[F] and flips its positions. -/
theorem exec_drw_eq_flipAll {s : State} {n : Nat} (x y : Reg) (hfits : n = 0 ∨ s.index.toNat + n - 1 ≤ 4095) :
    exec (.drw x y n) s = .next ((s.setFlag 0).flipAll (drawPositions s x y n)) := by
  obtain ⟨hpos, hover, -⟩ | ⟨-, hexec⟩ := execDrw_cases s x y n
  · omega
  · rw [State.drawRows_eq_flipAll] at hexec
    exact hexec

/-- The positions of a draw are the pixels it covers. -/
theorem mem_drawPositions (s : State) (x y : Reg) (n : Nat) (px : Fin 64) (py : Fin 32) :
    (px, py) ∈ drawPositions s x y n ↔ drawCovers s x y n px py = true := by
  simp only [drawPositions, spriteRows, mem_spritePositions, List.length_map, List.length_range, List.getElem_map,
    List.getElem_range, drawCovers, spriteBit, Bool.and_eq_true, decide_eq_true_eq]
  constructor
  · rintro ⟨r, hr, c, hc, hy, hx, hbit⟩
    rw [hx, hy, Nat.add_sub_cancel_left, Nat.add_sub_cancel_left]
    exact ⟨⟨by omega, by omega⟩, hbit⟩
  · rintro ⟨⟨hx, hy⟩, hbit⟩
    exact ⟨py.val - drawRow s y, by omega, px.val - drawColumn s x, by omega, by omega, by omega, hbit⟩

/-- The positions of rows listed by number: row r of the sprite lies in display row y + r. -/
theorem spritePositions_map_range (x0 y n : Nat) (row : Nat → Byte) :
    spritePositions x0 y ((List.range n).map row) =
      (List.range n).flatMap fun r => rowPositions x0 (y + r) (row r) spriteColumns := by
  induction n generalizing y row with
  | zero => rfl
  | succ n ih =>
    simp only [List.range_succ_eq_map, List.map_cons, List.map_map, spritePositions, List.flatMap_cons,
      List.flatMap_map, Nat.add_zero]
    rw [ih]
    simp [Nat.add_assoc, Nat.add_comm 1]

/-- The host operation of flipping a position of s (R194). -/
def plotEvent (s : State) (p : Position) : HostEvent := .plot p.1 p.2 (!s.pixel p.1 p.2)

/-- One sprite bit flips a position exactly where it plots. -/
theorem plotAt_eq (s : State) (x y : Reg) (r c : Nat) :
    (visiblePos (drawColumn s x + c) (drawRow s y + r) (spriteBit s r c)).map (.host ∘ plotEvent s) =
      plotAt s x y r c := by
  unfold visiblePos plotAt
  split <;> rfl

/-- The plot events of a draw are those of its positions in order. -/
theorem map_plotEvent_drawPositions (s : State) (x y : Reg) (n : Nat) :
    ((drawPositions s x y n).map (plotEvent s)).map .host = drawPlots s x y n := by
  rw [drawPositions, spriteRows, spritePositions_map_range, List.map_map, List.map_flatMap, drawPlots]
  refine List.flatMap_congr fun r _ => ?_
  rw [rowPositions, List.map_filterMap]
  exact List.filterMap_congr fun c _ => plotAt_eq s x y r c

/-- A draw adds the events of its positions to the trace. -/
theorem trace_draw (s : State) (x y : Reg) (n : Nat) :
    ((s.setFlag 0).flipAll (drawPositions s x y n)).trace =
      s.trace ++ ((drawPositions s x y n).map (plotEvent s)).map .host := by
  rw [State.trace_flipAll _ _ (nodup_drawPositions s x y n), List.map_map]
  rfl

theorem flipAll_frame (s : State) (ps : List Position) : DrawFrame s (s.flipAll ps) := by
  induction ps generalizing s with
  | nil => exact DrawFrame.refl s
  | cons p ps ih => exact (s.flipPixel_frame p.1 p.2).trans (ih _)

theorem DrawFrame.keepsRegsBut {s t : State} (h : DrawFrame s t) : keepsRegsBut [15] s t := fun r hr =>
  h.regs r (by simpa using hr)

theorem DrawFrame.keepsAllBut {s t : State} (h : DrawFrame s t) : keepsAllBut [.display, .trace] s t := fun p hp => by
  rw [h.rest]
  cases p with
  | display | trace => simp at hp
  | index | pc | stack | status | debugLatch | waiting | mem | inputs => simp [Part.same]

/-- A draw's effect on the state it starts from. -/
theorem setFlag_flipAll_frame (s : State) (f : Byte) (ps : List Position) : DrawFrame s ((s.setFlag f).flipAll ps) :=
  DrawFrame.trans ⟨fun r hr => setV_keepsRegsBut s 15 f r (by simpa using hr), rfl⟩ (flipAll_frame _ ps)

/-! ### The statements about a draw -/

/-- Settles O39: the check of `execDrw_cases` comes before everything else. -/
theorem drawChecksEveryRowAddress : Obligations.DrawChecksEveryRowAddress := by
  unfold Obligations.DrawChecksEveryRowAddress
  intro x y n s hpos hover
  obtain ⟨-, -, hexec⟩ | ⟨hfits, -⟩ := execDrw_cases s x y n
  · exact ⟨_, hexec, raised_raise s _⟩
  · omega

/-- Settles O40: a draw flips the distinct positions it covers (`exec_drw_eq_flipAll`, `mem_drawPositions`). -/
theorem drawInvertsTheCoveredPixels : Obligations.DrawInvertsTheCoveredPixels := by
  unfold Obligations.DrawInvertsTheCoveredPixels
  intro x y n s hfits
  have hnodup := nodup_drawPositions s x y n
  have hframe := setFlag_flipAll_frame s 0 (drawPositions s x y n)
  have hflag := (s.setFlag 0).flag_flipAll _ hnodup
  refine ⟨_, exec_drw_eq_flipAll x y hfits, fun px py => ?_, fun ⟨px, py, hcovers, hset⟩ => ?_, fun hclear => ?_,
    hframe.keepsRegsBut, hframe.keepsAllBut⟩
  · rw [State.pixel_flipAll _ _ hnodup, State.pixel_setFlag]
    simp only [mem_drawPositions, Bool.decide_eq_true]
  · rw [hflag, if_pos ⟨(px, py), (mem_drawPositions s x y n px py).2 hcovers, hset⟩]
  · rw [hflag, if_neg, (s.setFlag_spec 0).1]
    rintro ⟨⟨px, py⟩, hmem, hset⟩
    exact Bool.false_ne_true ((hclear px py ((mem_drawPositions s x y n px py).1 hmem)).symm.trans hset)

/-- Settles O41: each flip of a draw plots once, in the order of its positions (`trace_draw`,
`map_plotEvent_drawPositions`). -/
theorem drawReportsEveryPixelInOrder : Obligations.DrawReportsEveryPixelInOrder := by
  unfold Obligations.DrawReportsEveryPixelInOrder
  intro x y n s hfits
  exact ⟨_, exec_drw_eq_flipAll x y hfits, by rw [trace_draw, map_plotEvent_drawPositions]⟩

/-- A draw does not change what the same draw covers: a coordinate register 15 reads as 0 both times. -/
theorem drawCovers_eq_of_keeps {s t : State} (hregs : keepsRegsBut [15] s t)
    (hrest : keepsAllBut [.display, .trace] s t) (x y : Reg) (n : Nat) : drawCovers t x y n = drawCovers s x y n := by
  have hcol : drawColumn t x = drawColumn s x := by
    unfold drawColumn
    split
    · rfl
    · next hx => rw [hregs x (by simpa using hx)]
  have hrow : drawRow t y = drawRow s y := by
    unfold drawRow
    split
    · rfl
    · next hy => rw [hregs y (by simpa using hy)]
  have hindex : t.index = s.index := hrest .index (by simp)
  have hmem : ∀ a, Memory.read t.mem a = Memory.read s.mem a := hrest .mem (by simp)
  funext px py
  simp only [drawCovers, spriteBit, hcol, hrow, hindex, hmem]

/-- Settles O42: the second draw inverts the pixels the first one inverted (`drawCovers_eq_of_keeps`), so it finds
each of them set exactly where it was clear before the first. -/
theorem drawingTwiceRestoresTheDisplay : Obligations.DrawingTwiceRestoresTheDisplay := by
  unfold Obligations.DrawingTwiceRestoresTheDisplay
  intro x y n s t hfits hfirst
  obtain ⟨t', hexec, hpixel, -, -, hregs, hrest⟩ := drawInvertsTheCoveredPixels x y n s hfits
  cases hexec.symm.trans hfirst
  have hindex : t.index = s.index := hrest .index (by simp)
  obtain ⟨u, hexec', hpixel', hset, hclear, -, -⟩ := drawInvertsTheCoveredPixels x y n t (hindex.symm ▸ hfits)
  rw [drawCovers_eq_of_keeps hregs hrest] at hpixel' hset hclear
  refine ⟨u, hexec', fun px py => ?_, fun ⟨px, py, hcovers, hwas⟩ => hset ⟨px, py, hcovers, ?_⟩,
    fun hall => hclear fun px py hcovers => ?_⟩
  · rw [hpixel', hpixel, Bool.xor_assoc, Bool.xor_self, Bool.xor_false]
  · rw [hpixel, hcovers, hwas, Bool.false_xor]
  · rw [hpixel, hcovers, hall px py hcovers, Bool.true_xor, Bool.not_true]

end Sys2Proof.Machine
end

section
/-! SUPPORT. What an instruction may change, for every instruction at once, and the statements that say who writes
what (10_state.md R22 to R28, 20_memory.md R51). -/

namespace Sys2Proof.Machine

/-- The parts of the state other than the general registers that a row of the opcode map may change when it completes
(R23 to R28, R51, R247). -/
def writtenParts : Instr → List Part
  | .cls | .drw _ _ _ => [.display, .trace]
  | .ret | .call _ => [.pc, .stack]
  | .jp _ | .jpV0 _ | .seImm _ _ | .sneImm _ _ | .seReg _ _ | .sneReg _ _ => [.pc]
  | .ldImm _ _ | .addImm _ _ | .ldReg _ _ | .orReg _ _ | .andReg _ _ | .xorReg _ _ | .addReg _ _ => []
  | .subReg _ _ | .shrReg _ _ | .subnReg _ _ | .shlReg _ _ => []
  | .rnd _ _ => [.inputs]
  | .skp _ | .sknp _ => [.pc, .trace, .inputs]
  | .ldVxDT _ | .ldVxK _ => [.trace, .inputs]
  | .ldDTVx _ | .ldSTVx _ => [.trace]
  | .ldI _ | .addI _ | .ldF _ | .loadRegs _ => [.index]
  | .ldB _ => [.mem]
  | .storeRegs _ => [.mem, .index]

/-- No instruction that completes writes the status, the debug latch or the mark of a suspended step. -/
theorem notMem_writtenParts (i : Instr) :
    .status ∉ writtenParts i ∧ .debugLatch ∉ writtenParts i ∧ .waiting ∉ writtenParts i := by
  cases i <;> simp [writtenParts]

/-- The instruction i has completed, from s to u: it changed the registers and parts of its row at most, and added its
host operations to the trace. Memory it does not write is the same list, not only the same bytes. -/
structure Completes (i : Instr) (s u : State) : Prop where
  regs : ∀ r, ¬ writesReg i r → u.getV r = s.getV r
  rest : keepsAllBut (writtenParts i) s u
  mem : .mem ∉ writtenParts i → u.mem = s.mem
  events : ∃ evs : List HostEvent,
    u.trace = s.trace ++ evs.map .host ∧ ∀ n, hostOpCount i = some n → evs.length = n

/-- The kinds that only the fetch checks raise (R74, R230). -/
def ErrorKind.atFetch : ErrorKind → Bool
  | .pcUnderflow | .pcOverflow => true
  | _ => false

/-- What an instruction run in s may answer: an error that is no fetch error, a suspended await_key, or its
completion. -/
inductive ExecEffect (i : Instr) (s : State) : State → Prop
  | raised (k : ErrorKind) (hk : k.atFetch = false) : ExecEffect i s (s.raise k)
  | suspended (x : Reg) (hi : i = .ldVxK x) : ExecEffect i s s.suspend
  | completed {u : State} (h : Completes i s u) : ExecEffect i s u

variable {i : Instr} {s t u : State}

/-- A completed instruction from the frame of its update: the registers and parts it names are those of its row. -/
theorem Completes.of_frame {rs : List Reg} {ps : List Part} (evs : List HostEvent)
    (htrace : u.trace = s.trace ++ evs.map .host) (hmem : .mem ∉ writtenParts i → u.mem = s.mem)
    (hframe : keepsRegsBut rs s u ∧ keepsAllBut ps s u)
    (hrs : ∀ r ∈ rs, writesReg i r := by simp [writesReg]) (hps : writtenParts i = ps := by rfl)
    (hcount : ∀ n, hostOpCount i = some n → evs.length = n := by simp [hostOpCount]) : Completes i s u where
  regs r hr := hframe.1 r fun hmem => hr (hrs r hmem)
  rest := hps ▸ hframe.2
  mem := hmem
  events := ⟨evs, htrace, hcount⟩

/-- A completed instruction without host operations. -/
theorem Completes.of_silent {rs : List Reg} {ps : List Part} (hframe : keepsRegsBut rs s u ∧ keepsAllBut ps s u)
    (htrace : u.trace = s.trace := by rfl) (hmem : .mem ∉ writtenParts i → u.mem = s.mem := by exact fun _ => rfl)
    (hrs : ∀ r ∈ rs, writesReg i r := by simp [writesReg]) (hps : writtenParts i = ps := by rfl)
    (hcount : hostOpCount i = some 0 := by rfl) : Completes i s u :=
  .of_frame [] (by simp [htrace]) hmem hframe hrs hps (by simp [hcount])

/-- A check_key call followed by a skip completes an instruction whose row says so (R210, R211). -/
theorem Completes.of_checkKey (k : Key) (c : Bool) (hps : writtenParts i = [.pc, .trace, .inputs] := by rfl)
    (hcount : hostOpCount i = some 1 := by rfl) : Completes i s ((s.callCheckKey k).skipIf c) := by
  obtain ⟨-, htrace, -, hframe⟩ := s.callCheckKey_skipIf_spec k c
  exact .of_frame [.checkKey k (s.keyAnswer k)] htrace (fun _ => by rw [State.skipIf_eq]; rfl) hframe (by simp) hps
    (by simp [hcount])

/-- Every instruction answers a next state, with one of the effects of `ExecEffect`. -/
theorem exec_effect (i : Instr) (s : State) : ∃ u, exec i s = .next u ∧ ExecEffect i s u := by
  cases i with
  | cls =>
    exact ⟨_, rfl, .completed (.of_frame [.clear] rfl (fun _ => rfl)
      (s.clearDisplay_emit_frame _))⟩
  | ret =>
    obtain ⟨-, hx⟩ | ⟨k, hk, hx⟩ := execRet_cases s
    · exact ⟨_, hx, .raised _ rfl⟩
    · exact ⟨_, hx, .completed (.of_silent ⟨keepsRegsBut_of_v_eq rfl [], moveStack_keepsAllBut_pc_stack s _ _ _⟩)⟩
  | jp nnn =>
    by_cases hself : zextAddr nnn = s.fetchPc
    · exact ⟨_, if_pos hself, .raised _ rfl⟩
    · exact ⟨_, if_neg hself, .completed (.of_silent ⟨keepsRegsBut_of_v_eq rfl [], setPc_keepsAllBut_pc s _⟩)⟩
  | call nnn =>
    obtain ⟨-, hx⟩ | ⟨_, hx⟩ := execCall_cases s nnn
    · exact ⟨_, hx, .raised _ rfl⟩
    · exact ⟨_, hx, .completed (.of_silent ⟨keepsRegsBut_of_v_eq rfl [], moveStack_keepsAllBut_pc_stack s _ _ _⟩)⟩
  | jpV0 nnn => exact ⟨_, rfl, .completed (.of_silent ⟨keepsRegsBut_of_v_eq rfl [], setPc_keepsAllBut_pc s _⟩)⟩
  | seImm _ _ | sneImm _ _ | seReg _ _ | sneReg _ _ =>
    exact ⟨_, rfl, .completed (.of_silent (s.skipIf_spec _).2 (by rw [State.skipIf_eq]; rfl)
      (fun _ => by rw [State.skipIf_eq]; rfl))⟩
  | ldImm x _ | addImm x _ | ldReg x _ => exact ⟨_, rfl, .completed (.of_silent (s.setV_spec x _).2)⟩
  | orReg x _ | andReg x _ | xorReg x _ | addReg x _ | subReg x _ | subnReg x _ =>
    exact ⟨_, rfl, .completed (.of_silent (s.setV_setFlag_frame x _ _))⟩
  | shrReg x _ | shlReg x _ => exact ⟨_, rfl, .completed (.of_silent (s.setFlag_setV_frame x _ _))⟩
  | rnd x _ => exact ⟨_, rfl, .completed (.of_silent (s.takeRandom_setV_frame x _))⟩
  | drw x y n =>
    obtain ⟨-, -, hx⟩ | ⟨hfits, -⟩ := execDrw_cases s x y n
    · exact ⟨_, hx, .raised _ rfl⟩
    · have hframe := setFlag_flipAll_frame s 0 (drawPositions s x y n)
      exact ⟨_, exec_drw_eq_flipAll x y (by omega), .completed (.of_frame _ (trace_draw s x y n)
        (fun _ => by rw [hframe.rest]) ⟨hframe.keepsRegsBut, hframe.keepsAllBut⟩)⟩
  | skp x =>
    obtain ⟨-, hx⟩ | ⟨k, -, hx⟩ := execSkp_cases s x
    · exact ⟨_, hx, .raised _ rfl⟩
    · exact ⟨_, hx, .completed (.of_checkKey k _)⟩
  | sknp x =>
    obtain ⟨-, hx⟩ | ⟨k, -, hx⟩ := execSknp_cases s x
    · exact ⟨_, hx, .raised _ rfl⟩
    · exact ⟨_, hx, .completed (.of_checkKey k _)⟩
  | ldVxDT x => exact ⟨_, rfl, .completed (.of_frame [.getDelayTimer s.delayAnswer] rfl (fun _ => rfl)
      (s.answer_setV_frame _ _ x _))⟩
  | ldVxK x =>
    obtain ⟨-, hx⟩ | ⟨k, _, -, hx⟩ := execLdVxK_cases s x
    · exact ⟨_, hx, .suspended x rfl⟩
    · exact ⟨_, hx, .completed (.of_frame [.awaitKey k] rfl (fun _ => rfl) (s.answer_setV_frame _ _ x _))⟩
  | ldDTVx x => exact ⟨_, rfl, .completed (.of_frame [.setDelayTimer (s.getV x)] rfl (fun _ => rfl)
      (s.emit_spec _).2)⟩
  | ldSTVx x => exact ⟨_, rfl, .completed (.of_frame [.setSoundTimer (s.getV x)] rfl (fun _ => rfl)
      (s.emit_spec _).2)⟩
  | ldI _ | addI _ => exact ⟨_, rfl, .completed (.of_silent (s.setIndex_spec _))⟩
  | ldF x =>
    obtain ⟨-, hx⟩ | ⟨_, -, hx⟩ := execLdF_cases s x
    · exact ⟨_, hx, .raised _ rfl⟩
    · exact ⟨_, hx, .completed (.of_silent (s.setIndex_spec _))⟩
  | ldB x =>
    obtain ⟨-, hx⟩ | ⟨-, hx⟩ := execLdB_cases s x
    · exact ⟨_, hx, .raised _ rfl⟩
    · exact ⟨_, hx, .completed (.of_silent ⟨keepsRegsBut_of_v_eq rfl [], setMem_keepsAllBut_mem s _⟩
        (hmem := by simp [writtenParts]))⟩
  | storeRegs x =>
    obtain ⟨-, hx⟩ | ⟨-, hx⟩ := execStoreRegs_cases s x
    · exact ⟨_, hx, .raised _ rfl⟩
    · exact ⟨_, hx, .completed (.of_silent ⟨keepsRegsBut_of_v_eq rfl [], setMemIndex_keepsAllBut_mem_index s _ _⟩
        (hmem := by simp [writtenParts]))⟩
  | loadRegs x =>
    obtain ⟨-, hx⟩ | ⟨-, hx⟩ := execLoadRegs_cases s x
    · exact ⟨_, hx, .raised _ rfl⟩
    · exact ⟨_, hx, .completed
        { regs := fun r hr => (s.getV_loadedRegs _ x r).trans (if_neg hr)
          rest := setVIndex_keepsAllBut_index s _ _
          mem := fun _ => rfl
          events := ⟨[], (List.append_nil _).symm, by simp [hostOpCount]⟩ }⟩

/-- The effect of an instruction that is known to answer u. -/
theorem exec_effect_of_next (h : exec i s = .next u) : ExecEffect i s u := by
  obtain ⟨u', hx, heffect⟩ := exec_effect i s
  cases hx.symm.trans h
  exact heffect

/-! ### Who writes what -/

theorem suspend_keepsAllBut_pc_waiting (s : State) : keepsAllBut [.pc, .waiting] s s.suspend := fun p hp => by
  cases p with
  | pc | waiting => simp at hp
  | index | stack | display | status | debugLatch | mem | trace | inputs => simp [Part.same]

/-- A part other than pc, status and waiting, which errors and suspension touch, is changed only by an instruction in
whose row it stands. -/
theorem part_same_or_mem_writtenParts (h : exec i s = .next t) {p : Part} (hp : p ∉ [.pc, .status, .waiting]) :
    Part.same s t p ∨ p ∈ writtenParts i := by
  cases exec_effect_of_next h with
  | raised k _ =>
    obtain ⟨-, -, -, hrest⟩ := raised_raise s k
    exact .inl (hrest.mono (by simp) p hp)
  | suspended => exact .inl ((suspend_keepsAllBut_pc_waiting s).mono (by simp) p hp)
  | completed hdone =>
    by_cases hmem : p ∈ writtenParts i
    · exact .inr hmem
    · exact .inl (hdone.rest p hmem)

/-- Settles O18: errors and suspension write no register, and a completed instruction only those of its row
(`Completes.regs`). -/
theorem onlyListedInstructionsWriteRegisters : Obligations.OnlyListedInstructionsWriteRegisters := by
  unfold Obligations.OnlyListedInstructionsWriteRegisters
  intro i s t r h hr
  cases exec_effect_of_next h with
  | raised | suspended => rfl
  | completed hdone => exact hdone.regs r hr

/-- Settles O37: I stands in the rows of `writtenParts` of these five alone. -/
theorem onlyListedInstructionsWriteIndex : Obligations.OnlyListedInstructionsWriteIndex := by
  unfold Obligations.OnlyListedInstructionsWriteIndex
  intro i s t h hne
  obtain hsame | hmem := part_same_or_mem_writtenParts h (p := .index) (by simp)
  · exact absurd hsame hne
  · cases i <;> simp [writtenParts, mnemonicOf] at hmem ⊢

/-- Settles O43: the display stands in the rows of `writtenParts` of these two alone. -/
theorem onlyClearAndDrawChangeTheDisplay : Obligations.OnlyClearAndDrawChangeTheDisplay := by
  unfold Obligations.OnlyClearAndDrawChangeTheDisplay
  intro i s t px py h hne
  obtain hsame | hmem := part_same_or_mem_writtenParts h (p := .display) (by simp)
  · exact absurd (hsame px py) hne
  · cases i <;> simp [writtenParts, mnemonicOf] at hmem ⊢

theorem call_or_ret_of_stack_mem (h : .stack ∈ writtenParts i) : (∃ nnn, i = .call nnn) ∨ i = .ret := by
  cases i <;> simp [writtenParts] at h ⊢

theorem ldB_or_storeRegs_of_mem_mem (h : .mem ∈ writtenParts i) : (∃ x, i = .ldB x) ∨ ∃ x, i = .storeRegs x := by
  cases i <;> simp [writtenParts] at h ⊢

/-- Settles O27: the stack stands in the rows of `writtenParts` of the call and the return, whose two cases each are
`execCall_cases` and `execRet_cases`. -/
theorem onlyCallAndReturnMoveTheStack : Obligations.OnlyCallAndReturnMoveTheStack := by
  unfold Obligations.OnlyCallAndReturnMoveTheStack
  intro i s t h
  obtain hsame | hmem := part_same_or_mem_writtenParts h (p := .stack) (by simp)
  · exact .inl hsame
  obtain ⟨nnn, rfl⟩ | rfl := call_or_ret_of_stack_mem hmem
  · obtain ⟨-, hx⟩ | ⟨_, hx⟩ := execCall_cases s nnn
    · cases hx.symm.trans h
      exact .inl ⟨rfl, fun _ => rfl⟩
    · cases hx.symm.trans h
      exact .inr (.inl ⟨⟨nnn, rfl⟩, rfl⟩)
  · obtain ⟨-, hx⟩ | ⟨k, hk, hx⟩ := execRet_cases s
    · cases hx.symm.trans h
      exact .inl ⟨rfl, fun _ => rfl⟩
    · cases hx.symm.trans h
      exact .inr (.inr ⟨rfl, hk.symm, rfl⟩)

/-- Settles O35: memory stands in the rows of `writtenParts` of Fx33 and Fx55, whose windows
`bcdStoresThreeDigitsAtI` and `storeRegistersAtI` give. -/
theorem onlyStoresWriteMemory : Obligations.OnlyStoresWriteMemory := by
  unfold Obligations.OnlyStoresWriteMemory
  intro i s t hwf h
  obtain hsame | hmem := part_same_or_mem_writtenParts h (p := .mem) (by simp)
  · exact .inl hsame
  obtain ⟨x, rfl⟩ | ⟨x, rfl⟩ := ldB_or_storeRegs_of_mem_mem hmem
  · obtain ⟨hfits, hover⟩ := bcdStoresThreeDigitsAtI x s hwf
    by_cases hle : s.index.toNat ≤ 4093
    · obtain ⟨t', hx, -, -, -, hkept, -⟩ := hfits hle
      cases hx.symm.trans h
      exact .inr (.inl ⟨⟨x, rfl⟩, by omega, hkept⟩)
    · obtain ⟨t', hx, -, -, -, hrest⟩ := hover (by omega)
      cases hx.symm.trans h
      exact .inl (hrest .mem (by simp))
  · obtain ⟨hfits, hover⟩ := storeRegistersAtI x s hwf
    by_cases hle : s.index.toNat + x.val ≤ 4095
    · obtain ⟨t', hx, -, hkept, -⟩ := hfits hle
      cases hx.symm.trans h
      exact .inr (.inr ⟨x, rfl, by omega, hkept⟩)
    · obtain ⟨t', hx, -, -, -, hrest⟩ := hover (by omega)
      cases hx.symm.trans h
      exact .inl (hrest .mem (by simp))

/-- Settles O22: the call put pc into slot sp (`execCall_cases`), and the return takes it from there
(`execRet_cases`). -/
theorem returnUndoesCall : Obligations.ReturnUndoesCall := by
  unfold Obligations.ReturnUndoesCall
  intro nnn s t u hroom hcall hsp hstack
  obtain ⟨hfull, -⟩ | ⟨_, hx⟩ := execCall_cases s nnn
  · omega
  cases hx.symm.trans hcall
  obtain ⟨hempty, -⟩ | ⟨k, hk, hx'⟩ := execRet_cases u
  · simp [hsp] at hempty
  · have hk' : k.val = s.sp.val := by simpa [hsp, eq_comm] using hk
    exact ⟨_, hx', by simp [hstack, hk'], Fin.ext hk', rfl⟩

end Sys2Proof.Machine
end

section
/-! SUPPORT. What a step may change, and the statements about every step (30_encoding.md R74 to R79, 10_state.md R31,
60_exceptions.md R231, R232, R237, R247, R251). -/

namespace Sys2Proof.Machine

variable {s t u : State} {i : Instr}

/-! ### What a step does -/

/-- What a step of a running machine may answer: a failed fetch check, an error of the fetched word, a suspended
await_key, or the completed instruction at pc. -/
inductive StepEffect (s : State) : State → Prop
  | underflow (hpc : s.pc.toNat < 0x200) : StepEffect s (s.fetchError .pcUnderflow).recordResult
  | overflow (hpc : 4095 ≤ s.pc.toNat) : StepEffect s (s.fetchError .pcOverflow).recordResult
  | raised (hf : s.fetchable) (k : ErrorKind) (hk : k.atFetch = false) :
      StepEffect s ((s.afterFetch s.wordAtPc).raise k).recordResult
  | suspended (hf : s.fetchable) : StepEffect s (s.afterFetch s.wordAtPc).suspend
  | completed (hf : s.fetchable) {i : Instr} {u : State} (hi : decode s.wordAtPc = .ok i)
      (hx : exec i (s.afterFetch s.wordAtPc) = .next u) (hdone : Completes i (s.afterFetch s.wordAtPc) u) :
      StepEffect s u.recordResult

theorem Completes.status_eq (h : Completes i s u) : u.status = s.status :=
  h.rest .status (notMem_writtenParts i).1

theorem Completes.debugLatch_same (h : Completes i s u) : Part.same s u .debugLatch :=
  h.rest .debugLatch (notMem_writtenParts i).2.1

theorem Completes.waiting_eq (h : Completes i s u) : u.waiting = s.waiting :=
  h.rest .waiting (notMem_writtenParts i).2.2

theorem State.endStep_of_not_waiting (h : u.waiting = false) : u.endStep = u.recordResult := by
  simp [State.endStep, h]

/-- Every step is of a running machine and has one of the effects of `StepEffect`. -/
theorem step_effect (h : step s = .next t) : s.status = .running ∧ StepEffect s t := by
  obtain ⟨hrun, ⟨hpc, rfl⟩ | ⟨hpc, rfl⟩ | ⟨hf, u, hu, rfl⟩⟩ := step_cases h
  · exact ⟨hrun, .underflow hpc⟩
  · exact ⟨hrun, .overflow hpc⟩
  refine ⟨hrun, ?_⟩
  obtain ⟨i, hi, hx⟩ | ⟨e, -, hx⟩ := execWord_cases s.wordAtPc (s.afterFetch s.wordAtPc)
  · rw [hx] at hu
    cases exec_effect_of_next hu with
    | raised k hk => exact .raised hf k hk
    | suspended => exact .suspended hf
    | completed hdone =>
      rw [State.endStep_of_not_waiting hdone.waiting_eq]
      exact .completed hf hi hu hdone
  · cases hx.symm.trans hu
    exact .raised hf .illegalInstruction rfl

/-- The step of a machine whose pc is too low (R74). -/
theorem step_of_low_pc (hrun : s.status = .running) (hlow : s.pc.toNat < 0x200) :
    step s = .next (s.fetchError .pcUnderflow).recordResult := by
  simp [step, hrun, hlow]

/-- The step of a machine whose pc is too high (R74). -/
theorem step_of_high_pc (hrun : s.status = .running) (hhigh : 4095 ≤ s.pc.toNat) :
    step s = .next (s.fetchError .pcOverflow).recordResult := by
  have hnlow : ¬ s.pc.toNat < 0x200 := by omega
  simp [step, hrun, hnlow, hhigh]

/-- The step of a fetchable machine whose word decodes (R75, R77). -/
theorem step_of_decode (hf : s.fetchable) (hi : decode s.wordAtPc = .ok i) :
    step s = finishStep (exec i (s.afterFetch s.wordAtPc)) := by
  rw [step_fetchable hf, execWord, hi]

/-! ### Frames of the ends of a step -/

theorem fetchError_recordResult_frame (s : State) (k : ErrorKind) :
    keepsRegsBut [] s (s.fetchError k).recordResult ∧
      keepsAllBut [.status, .debugLatch, .trace] s (s.fetchError k).recordResult := by
  refine ⟨keepsRegsBut_of_v_eq rfl [], fun p hp => ?_⟩
  cases p with
  | status | debugLatch | trace => simp at hp
  | index | pc | stack | display | waiting | mem | inputs => simp [Part.same]

theorem raise_recordResult_frame (s : State) (op : Word) (k : ErrorKind) :
    keepsRegsBut [] s ((s.afterFetch op).raise k).recordResult ∧
      keepsAllBut [.status, .debugLatch, .waiting, .trace] s ((s.afterFetch op).raise k).recordResult := by
  refine ⟨keepsRegsBut_of_v_eq rfl [], fun p hp => ?_⟩
  cases p with
  | status | debugLatch | waiting | trace => simp at hp
  | index | pc | stack | display | mem | inputs => simp [Part.same]

theorem afterFetch_suspend_frame (s : State) (op : Word) :
    keepsRegsBut [] s (s.afterFetch op).suspend ∧
      keepsAllBut [.waiting, .debugLatch] s (s.afterFetch op).suspend := by
  refine ⟨keepsRegsBut_of_v_eq rfl [], fun p hp => ?_⟩
  cases p with
  | waiting | debugLatch => simp at hp
  | index | pc | stack | display | status | mem | trace | inputs => simp [Part.same]

theorem afterFetch_keepsAllBut (s : State) (op : Word) :
    keepsAllBut [.pc, .debugLatch, .waiting] s (s.afterFetch op) := fun p hp => by
  cases p with
  | pc | debugLatch | waiting => simp at hp
  | index | stack | display | status | mem | trace | inputs => simp [Part.same]

theorem recordResult_keepsAllBut_trace (s : State) : keepsAllBut [.trace] s s.recordResult := fun p hp => by
  cases p with
  | trace => simp at hp
  | index | pc | stack | display | status | debugLatch | waiting | mem | inputs => simp [Part.same]

/-! ### Fetch and decode -/

/-- Settles O4: `decode_error_iff` and, for the step, the error of `execWord_cases`. -/
theorem illegalWordsHaltTheMachine : Obligations.IllegalWordsHaltTheMachine := by
  unfold Obligations.IllegalWordsHaltTheMachine
  refine ⟨decode_error_iff, fun s hf hillegal => ?_⟩
  obtain ⟨e, he⟩ := (decode_error_iff _).2 hillegal
  have hstep : step s = .next ((s.afterFetch s.wordAtPc).raise .illegalInstruction).recordResult := by
    rw [step_fetchable hf, execWord, he]
    rfl
  exact ⟨_, hstep, rfl, by simp, by simp [Status.stepResult], raise_recordResult_frame s _ _⟩

/-- Settles O6: the bytes at pc decode as the word at pc (`decodeBytes_cons_cons`), which the step runs
(`step_of_decode`). -/
theorem stepRunsTheDecodedInstruction : Obligations.StepRunsTheDecodedInstruction := by
  unfold Obligations.StepRunsTheDecodedInstruction
  exact fun s i rest hf hdec => step_of_decode hf (decodeBytes_cons_cons.1 hdec).1

/-- Settles O7: the two failed checks are `step_of_low_pc` and `step_of_high_pc`; elsewhere no effect of
`StepEffect` is of their kinds. -/
theorem fetchChecksGuardTheProgramCounter : Obligations.FetchChecksGuardTheProgramCounter := by
  unfold Obligations.FetchChecksGuardTheProgramCounter
  refine fun s hrun => ⟨fun hlow => ?_, fun hhigh => ?_, fun hlow hhigh => ⟨hhigh, fun t h => ?_⟩⟩
  · exact ⟨_, step_of_low_pc hrun hlow, rfl, rfl, rfl, rfl, fetchError_recordResult_frame s _⟩
  · exact ⟨_, step_of_high_pc hrun hhigh, rfl, rfl, rfl, rfl, fetchError_recordResult_frame s _⟩
  · obtain ⟨-, heffect⟩ := step_effect h
    cases heffect with
    | underflow hpc | overflow hpc => omega
    | raised _ k hk => cases k <;> simp [ErrorKind.atFetch] at hk ⊢
    | suspended => simp [hrun]
    | completed _ _ _ hdone => simp [hdone.status_eq, hrun]

/-- Settles O8: the latch is set at the fetch, and neither an error, nor a suspension, nor a completed instruction
writes it (`Completes.debugLatch_same`). -/
theorem fetchedWordIsLatched : Obligations.FetchedWordIsLatched := by
  unfold Obligations.FetchedWordIsLatched
  intro s t ⟨_, hlow, hhigh⟩ h
  obtain ⟨-, heffect⟩ := step_effect h
  cases heffect with
  | underflow hpc | overflow hpc => omega
  | raised | suspended => exact ⟨rfl, rfl⟩
  | completed _ _ _ hdone => exact hdone.debugLatch_same

/-! ### Errors, the trace and progress -/

/-- Settles O49: errors record their result alone, and a completed instruction its host operations
(`Completes.events`) before it. -/
theorem stepTraceIsHostOperationsThenResult : Obligations.StepTraceIsHostOperationsThenResult := by
  unfold Obligations.StepTraceIsHostOperationsThenResult
  intro s t h hwait
  obtain ⟨hrun, heffect⟩ := step_effect h
  cases heffect with
  | underflow | overflow | raised => exact ⟨[], by simp, fun _ _ => rfl, fun _ _ h => by simp at h⟩
  | suspended => simp at hwait
  | completed _ hi _ hdone =>
    obtain ⟨evs, htrace, hcount⟩ := hdone.events
    refine ⟨evs, by rw [State.recordResult_trace, htrace]; rfl, fun k hk => ?_, fun j n _ hj hn => hcount n ?_⟩
    · simp [hdone.status_eq, hrun] at hk
    · cases hi.symm.trans hj
      exact hn

/-- Settles O50: the steps of `StepEffect` that end halted are the failed fetch checks and the errors, whose frames
are `fetchError_recordResult_frame` and `raise_recordResult_frame`. -/
theorem errorStepsChangeNothingElse : Obligations.ErrorStepsChangeNothingElse := by
  unfold Obligations.ErrorStepsChangeNothingElse
  intro s t k h hhalt
  obtain ⟨hrun, heffect⟩ := step_effect h
  cases heffect with
  | underflow | overflow =>
    cases hhalt
    obtain ⟨hregs, hrest⟩ := fetchError_recordResult_frame s _
    exact ⟨rfl, rfl, id, hregs, hrest.mono⟩
  | raised =>
    cases hhalt
    exact ⟨by simp, rfl, fun _ => rfl, raise_recordResult_frame s _ _⟩
  | suspended => simp [hrun] at hhalt
  | completed _ _ _ hdone => simp [hdone.status_eq, hrun] at hhalt

/-- Settles O51: a failed fetch check, an illegal word and every instruction (`exec_effect`) answer a next state. -/
theorem runningMachinesAlwaysStep : Obligations.RunningMachinesAlwaysStep := by
  unfold Obligations.RunningMachinesAlwaysStep
  intro s hrun
  by_cases hlow : s.pc.toNat < 0x200
  · exact ⟨_, step_of_low_pc hrun hlow⟩
  by_cases hhigh : 4095 ≤ s.pc.toNat
  · exact ⟨_, step_of_high_pc hrun hhigh⟩
  have hf : s.fetchable := ⟨hrun, by omega, by omega⟩
  rw [step_fetchable hf]
  obtain ⟨i, -, hx⟩ | ⟨e, -, hx⟩ := execWord_cases s.wordAtPc (s.afterFetch s.wordAtPc)
  · obtain ⟨u, hu, -⟩ := exec_effect i (s.afterFetch s.wordAtPc)
    exact ⟨u.endStep, by rw [hx, hu]; rfl⟩
  · exact ⟨_, by rw [hx]; rfl⟩

/-- Settles O52: `step` refuses a halted machine first, and its port answers as `respond_halted` says. -/
theorem haltedMachinesHaveNoStep : Obligations.HaltedMachinesHaveNoStep := by
  unfold Obligations.HaltedMachinesHaveNoStep
  exact fun s k hhalt => ⟨by rw [step, hhalt], respond_halted hhalt⟩

/-- Settles O60: the dump is the fields it names, the response is `respond_next`, and a failed fetch check keeps the
word of the latch. -/
theorem portsReadTheStatusAndTheDebugLatch : Obligations.PortsReadTheStatusAndTheDebugLatch := by
  unfold Obligations.PortsReadTheStatusAndTheDebugLatch
  refine ⟨fun s => ⟨rfl, rfl, rfl, rfl, rfl, fun _ => rfl, rfl⟩, fun s t hrun h hwait => ?_, fun s t hrun hpc h => ?_⟩
  · rw [respond_next hrun h, hwait]
    rfl
  · obtain ⟨-, heffect⟩ := step_effect h
    cases heffect with
    | underflow | overflow => exact ⟨rfl, rfl⟩
    | raised hf | suspended hf | completed hf =>
      obtain ⟨-, hlow, hhigh⟩ := hf
      omega

/-! ### The wait for a key -/

/-- With a key supplied, the step of a fetchable machine at an Fx0A completes with it (R213, R251). -/
theorem step_of_supplied_key {x : Reg} {k : Key} {rest : List Key} (hf : s.fetchable)
    (hdec : decode s.wordAtPc = .ok (.ldVxK x)) (hkey : s.inputs.awaited = k :: rest) :
    ∃ u, step s = .next u ∧ u.waiting = false ∧ u.pc = s.pc + 2 ∧ (u.getV x).toNat = k.val ∧
      u.trace = s.trace ++ [.host (.awaitKey k), .result .ok] ∧
      keepsRegsBut [x] s u ∧ keepsAllBut [.waiting, .debugLatch, .pc, .trace, .inputs] s u := by
  obtain ⟨u, hx, hanswer, htrace, -, hregs, hrest⟩ :=
    keyWaitWritesTheSuppliedKey x k rest (s.afterFetch s.wordAtPc) hkey
  have hwait : u.waiting = false := hrest .waiting (by simp)
  have hstatus : u.status = .running := (hrest .status (by simp)).trans hf.1
  refine ⟨u.recordResult, ?_, hwait, hrest .pc (by simp), hanswer, ?_, hregs,
    ((afterFetch_keepsAllBut s _).trans hrest (rs := [.waiting, .debugLatch, .pc, .trace, .inputs])).trans
      (recordResult_keepsAllBut_trace u)⟩
  · rw [step_of_decode hf hdec, hx, finishStep, State.endStep_of_not_waiting hwait]
  · rw [State.recordResult_trace, htrace, hstatus, List.append_assoc]
    rfl

/-- Settles O48: without a key the step is the suspension of `execLdVxK_cases`, which keeps the machine at the same
fetchable word, and with one the next step completes (`step_of_supplied_key`). -/
theorem keyWaitIsSuspendedUntilAKeyArrives : Obligations.KeyWaitIsSuspendedUntilAKeyArrives := by
  unfold Obligations.KeyWaitIsSuspendedUntilAKeyArrives
  intro x k s hf hdec hnone
  obtain ⟨-, hx⟩ | ⟨_, _, hkey, -⟩ := execLdVxK_cases (s.afterFetch s.wordAtPc) x
  case inr => simp [hnone] at hkey
  have hstep : step s = .next (s.afterFetch s.wordAtPc).suspend := by
    rw [step_of_decode hf hdec]
    exact congrArg finishStep hx
  obtain ⟨hregs, hrest⟩ := afterFetch_suspend_frame s s.wordAtPc
  have hpc : (s.afterFetch s.wordAtPc).suspend.pc = s.pc := hrest .pc (by simp)
  refine ⟨_, hstep, rfl, hpc, hregs, hrest, ?_⟩
  have hsupply := setInputs_keepsAllBut_inputs (s.afterFetch s.wordAtPc).suspend
    ((s.afterFetch s.wordAtPc).suspend.supplyKey k).inputs
  have hf' : ((s.afterFetch s.wordAtPc).suspend.supplyKey k).fetchable := by
    rw [State.fetchable, State.supplyKey, hpc]
    exact hf
  have hword : ((s.afterFetch s.wordAtPc).suspend.supplyKey k).wordAtPc = s.wordAtPc := by
    rw [State.wordAtPc, State.supplyKey, hpc]
    rfl
  have hkey : ((s.afterFetch s.wordAtPc).suspend.supplyKey k).inputs.awaited = k :: [] := congrArg (· ++ [k]) hnone
  obtain ⟨u, hstep', hwait, hpc', hanswer, htrace, hregs', hrest'⟩ := step_of_supplied_key hf' (hword ▸ hdec) hkey
  exact ⟨u, hstep', hwait, hpc'.trans (congrArg (· + 2) hpc), hanswer, htrace, hregs',
    ((hrest.trans hsupply (rs := [.waiting, .debugLatch, .inputs])).trans hrest')⟩

end Sys2Proof.Machine
end

section
/-! SUPPORT. The state after construction, a program load, and the status codes (70_reset_and_hazards.md R270 to R274,
10_state.md R30). -/

namespace Sys2Proof.Machine

/-! ### Construction -/

/-- Settles O53: the reset state is its own cleared state, and its pc passes the fetch checks. -/
theorem resetLeavesTheStatedValues : Obligations.ResetLeavesTheStatedValues := by
  unfold Obligations.ResetLeavesTheStatedValues
  exact ⟨State.pixel_clearDisplay State.reset, rfl, rfl, rfl, rfl, State.fetchOp_eq State.reset (by decide)⟩

/-- Memory outside the font reads 0 where nothing was written (R57). -/
theorem Memory.blank_eq_zero {a : Nat} (h : 80 ≤ a) : Memory.blank a = 0 :=
  List.getD_eq_default _ _ (show defaultFont.length ≤ a from h)

/-- Settles O54: each value is evaluated, and memory lists nothing (`Memory.blank_eq_zero`). -/
theorem resetLeavesTheDecidedValues : Obligations.ResetLeavesTheDecidedValues := by
  unfold Obligations.ResetLeavesTheDecidedValues
  exact ⟨by decide, rfl, by decide, rfl, rfl, fun _ => Memory.blank_eq_zero⟩

/-- Settles O58: no clause but the bounds of pc and the slots says anything of the reset state. -/
theorem resetMeetsTheInvariant : Obligations.ResetMeetsTheInvariant := by
  unfold Obligations.ResetMeetsTheInvariant
  exact { memory := reset_wf, pcBound := by decide, slots := by decide, suspended := by decide, latched := trivial }

/-- Settles O55: construction is two block writes, the second one above the font (`Memory.read_writeList_outside`,
`Memory.read_writeList_getElem`). -/
theorem constructionLoadsTheFont : Obligations.ConstructionLoadsTheFont := by
  unfold Obligations.ConstructionLoadsTheFont
  intro p
  have hfont : 0 + p.font.toList.length ≤ Config.memSize := by simp [Config.memSize]
  have hmem : 80 + (p.initMem.take (Config.memSize - 80)).length ≤ Config.memSize := by
    rw [List.length_take, Config.memSize]
    omega
  have hwf := Memory.wf_writeList reset_wf 0 p.font.toList hfont
  refine ⟨fun a => ?_, rfl, rfl, rfl, Memory.wf_writeList hwf 80 _ hmem⟩
  have hlt : a.val < p.font.toList.length := by simp
  have hread := Memory.read_writeList_getElem reset_wf hfont hlt
  rw [Nat.zero_add, Vector.getElem_toList] at hread
  exact (Memory.read_writeList_outside hwf hmem (.inl a.isLt)).trans hread

/-! ### Program load -/

/-- Settles O56: an accepted load is one block write at 0x200. -/
theorem programLoadCopiesTheBuffer : Obligations.ProgramLoadCopiesTheBuffer := by
  unfold Obligations.ProgramLoadCopiesTheBuffer
  refine fun s buf hwf => ⟨fun hsize => ⟨_, if_pos hsize, ?_⟩, fun hsize => if_neg (not_le.2 hsize)⟩
  have hwindow : 0x200 + buf.length ≤ Config.memSize := by
    rw [Config.memSize]
    omega
  exact ⟨fun k hk => Memory.read_writeList_getElem hwf hwindow hk,
    fun b hb => Memory.read_writeList_outside hwf hwindow hb, Memory.wf_writeList hwf _ _ hwindow,
    keepsRegsBut_of_v_eq rfl [], setMem_keepsAllBut_mem s _⟩

/-! ### Status codes -/

/-- The status of a code, where it has one (R30, D2). -/
def statusOfCode (c : BitVec 4) : Option Status :=
  match c.toNat with
  | 0 => some .running
  | 1 => some (.halted .pcUnderflow)
  | 2 => some (.halted .pcOverflow)
  | 3 => some (.halted .stackOverflow)
  | 4 => some (.halted .stackUnderflow)
  | 5 => some (.halted .infiniteLoop)
  | 6 => some (.halted .illegalInstruction)
  | 7 => some (.halted .illegalDigit)
  | 8 => some (.halted .indexOverflow)
  | 9 => some (.halted .badKey)
  | _ => none

/-- A status is read back from its code. -/
theorem statusOfCode_code (a : Status) : statusOfCode a.code = some a := by
  obtain _ | k := a
  · rfl
  · cases k <;> rfl

/-- Settles O57: no two statuses share a code because each is read back from its own (`statusOfCode_code`). -/
theorem statusCodesAreDistinct : Obligations.StatusCodesAreDistinct := by
  unfold Obligations.StatusCodesAreDistinct
  refine ⟨rfl, fun a => ?_, fun a b hcode => Option.some_injective _ ?_⟩
  · obtain _ | k := a
    · decide
    · cases k <;> decide
  · rw [← statusOfCode_code a, hcode, statusOfCode_code b]

end Sys2Proof.Machine
end

section
/-! SUPPORT. Every step keeps the invariant of the machine (10_state.md R25, 40_control_flow.md R102, 60_exceptions.md
R230, R251). -/

namespace Sys2Proof.Machine

variable {s t u : State} {i : Instr}

/-! ### What an instruction keeps of the invariant -/

/-- Memory stays canonical: only Fx33 and Fx55 write it, and their windows lie in memory. -/
theorem exec_mem_wf (hwf : s.mem.wf = true) (h : exec i s = .next u) : u.mem.wf = true := by
  cases exec_effect_of_next h with
  | raised | suspended => exact hwf
  | completed hdone =>
    by_cases hmem : .mem ∈ writtenParts i
    · obtain ⟨x, rfl⟩ | ⟨x, rfl⟩ := ldB_or_storeRegs_of_mem_mem hmem
      · obtain ⟨-, hx⟩ | ⟨hfits, hx⟩ := execLdB_cases s x
        · cases hx.symm.trans h
          exact hwf
        · cases hx.symm.trans h
          exact Memory.wf_writeList hwf _ _ (bcdDigits_fits hfits _)
      · obtain ⟨-, hx⟩ | ⟨hfits, hx⟩ := execStoreRegs_cases s x
        · cases hx.symm.trans h
          exact hwf
        · cases hx.symm.trans h
          exact Memory.wf_writeList hwf _ _ (State.regsUpTo_fits hfits)
    · rwa [hdone.mem hmem]

/-- The slots stay return addresses: only a call writes one, and it writes pc (R102). -/
theorem exec_slots_le (hslots : ∀ k : Fin 16, s.stack[k].toNat ≤ 0x1000) (hpc : s.pc.toNat ≤ 0x1000)
    (h : exec i s = .next u) (k : Fin 16) : u.stack[k].toNat ≤ 0x1000 := by
  obtain hsame | ⟨⟨nnn, rfl⟩, -⟩ | ⟨-, -, hsame⟩ := onlyCallAndReturnMoveTheStack i s u h
  · rw [hsame.2 k]
    exact hslots k
  · obtain ⟨-, hx⟩ | ⟨hroom, hx⟩ := execCall_cases s nnn
    · cases hx.symm.trans h
      exact hslots k
    · cases hx.symm.trans h
      by_cases hk : s.sp.val = k.val
      · simpa [hk] using hpc
      · simpa [Vector.getElem_set_ne hroom k.isLt hk] using hslots k
  · rw [hsame]
    exact hslots k

theorem toNat_add_two (w : Word) : (w + 2).toNat = (w.toNat + 2) % 65536 := BitVec.toNat_add w 2#16

/-- Every target of a completed instruction lies at or below 0x10FE, the highest one of Bnnn (R25). -/
theorem PcTarget.toNat_le {pc : Word} (h : PcTarget s i pc) (hpc : s.pc.toNat ≤ 0x1000)
    (hslots : ∀ k : Fin 16, s.stack[k].toNat ≤ 0x1000) : pc.toNat ≤ 0x10FE := by
  cases h with
  | sequential => omega
  | skip =>
    rw [toNat_add_two]
    omega
  | jp nnn | call nnn =>
    have := nnn.isLt
    rw [toNat_zextAddr]
    omega
  | jpV0 nnn =>
    have := nnn.isLt
    have := (s.getV 0).isLt
    rw [State.toNat_computedTarget]
    omega
  | ret k =>
    have := hslots k
    omega

/-! ### What a step keeps of the invariant -/

/-- Inside a step pc has been advanced to at most 0x1000 (R74, R75). -/
theorem State.fetchable.toNat_advanced_le (hf : s.fetchable) (op : Word) : (s.afterFetch op).pc.toNat ≤ 0x1000 := by
  obtain ⟨-, -, hhigh⟩ := hf
  rw [State.afterFetch_pc, toNat_add_two]
  omega

/-- A running machine's pc is not latched yet. -/
theorem State.latchedPc_of_running (h : s.status = .running) : s.latchedPc := by
  rw [State.latchedPc, h]
  trivial

/-- After an error of the fetched word pc is its address (R230, R233). -/
theorem latchedPc_raise (hf : s.fetchable) {k : ErrorKind} (hk : k.atFetch = false) (op : Word) :
    ((s.afterFetch op).raise k).recordResult.latchedPc := by
  have hpc : ((s.afterFetch op).raise k).recordResult.pc = s.pc := by simp
  obtain ⟨-, hlow, hhigh⟩ := hf
  cases k with
  | pcUnderflow | pcOverflow => cases hk
  | stackOverflow | stackUnderflow | infiniteLoop | illegalInstruction | illegalDigit | indexOverflow | badKey =>
    exact ⟨hpc ▸ hlow, hpc ▸ hhigh, rfl⟩

/-- A failed fetch check keeps the invariant: no step is suspended at a pc that fails it. -/
theorem State.Inv.fetchError {k : ErrorKind} (hinv : s.Inv) (hnot : ¬ s.fetchable)
    (hlatched : (s.fetchError k).recordResult.latchedPc) : (s.fetchError k).recordResult.Inv where
  memory := hinv.memory
  pcBound := hinv.pcBound
  slots := hinv.slots
  suspended hwait := absurd (hinv.suspended hwait) hnot
  latched := hlatched

/-- Settles O59: `step_effect` leaves the failed fetch checks, the errors and the suspension, which keep memory, the
slots and pc, and the completed instruction, whose pc is one of the targets of `step_pc_cases`. -/
theorem stepKeepsTheInvariant : Obligations.StepKeepsTheInvariant := by
  unfold Obligations.StepKeepsTheInvariant
  intro s t hinv h
  obtain ⟨hrun, heffect⟩ := step_effect h
  cases heffect with
  | underflow hpc => exact hinv.fetchError (fun ⟨_, hlow, _⟩ => by omega) ⟨hpc, rfl⟩
  | overflow hpc => exact hinv.fetchError (fun ⟨_, _, hhigh⟩ => by omega) ⟨hpc, rfl⟩
  | raised hf k hk =>
    exact { memory := hinv.memory, pcBound := by simpa using hinv.pcBound, slots := hinv.slots
            suspended := fun hwait => by simp at hwait
            latched := latchedPc_raise hf hk _ }
  | suspended hf =>
    have hpc : (s.afterFetch s.wordAtPc).suspend.pc = s.pc := by simp
    exact { memory := hinv.memory, pcBound := hpc ▸ hinv.pcBound, slots := hinv.slots
            suspended := fun _ => by rwa [State.fetchable, hpc]
            latched := State.latchedPc_of_running hrun }
  | completed hf hi hx hdone =>
    have hrun' := hdone.status_eq.trans hrun
    have hadvanced := hf.toNat_advanced_le s.wordAtPc
    have hmem := exec_mem_wf (s := s.afterFetch s.wordAtPc) hinv.memory hx
    have hslots := exec_slots_le (s := s.afterFetch s.wordAtPc) hinv.slots hadvanced hx
    refine { memory := hmem, pcBound := ?_, slots := hslots
             suspended := fun hwait => absurd (hdone.waiting_eq.symm.trans hwait) Bool.false_ne_true
             latched := State.latchedPc_of_running hrun' }
    obtain ⟨k, hhalt, -⟩ | ⟨-, hwait, -⟩ | ⟨-, j, -, htarget⟩ := step_pc_cases h
    · simp [hrun'] at hhalt
    · simp [hdone.waiting_eq] at hwait
    · exact htarget.toNat_le hadvanced hinv.slots

end Sys2Proof.Machine
end
